-- ==== Sys2Proof/Word.lean ====
section
/-! DEFINITION. The two word widths of the hardware (spec rules R5, R7): bytes, and 16-bit words. Everything is unsigned. -/

namespace Sys2Proof

/-- 8 bits: a general register, a timer, a memory byte. -/
abbrev Byte := BitVec 8

/-- 16 bits: `I`, `pc`, a stack entry, an instruction word, `FAULT.INFO`. -/
abbrev Word := BitVec 16

end Sys2Proof
end

