-- ==== Sys2Proof/Syntax.lean ====
section
/-! DEFINITION. The instructions: one constructor for each of the 35 rows of spec/opcode_table.json (rules R62, R66). -/

namespace Sys2Proof

/-- The 4-bit fields `x` and `y` (R61): a general register's number, or a count in Fx55 and Fx65. -/
abbrev RegNo := BitVec 4

/-- The 12-bit field `nnn` (R61). -/
abbrev Addr := BitVec 12

/-- One constructor per row of the opcode map (R66), in its order, with the operands its format names (R62). -/
inductive Instr where
  /-- 00E0 `CLS` -/
  | cls
  /-- 00EE `RET` -/
  | ret
  /-- 1nnn `JP nnn` -/
  | jp (nnn : Addr)
  /-- 2nnn `CALL nnn` -/
  | call (nnn : Addr)
  /-- 3xkk `SE Vx, kk` -/
  | seImm (x : RegNo) (kk : Byte)
  /-- 4xkk `SNE Vx, kk` -/
  | sneImm (x : RegNo) (kk : Byte)
  /-- 5xy0 `SE Vx, Vy` -/
  | seReg (x y : RegNo)
  /-- 6xkk `LD Vx, kk` -/
  | ldImm (x : RegNo) (kk : Byte)
  /-- 7xkk `ADD Vx, kk` -/
  | addImm (x : RegNo) (kk : Byte)
  /-- 8xy0 `LD Vx, Vy` -/
  | ldReg (x y : RegNo)
  /-- 8xy1 `OR Vx, Vy` -/
  | orReg (x y : RegNo)
  /-- 8xy2 `AND Vx, Vy` -/
  | andReg (x y : RegNo)
  /-- 8xy3 `XOR Vx, Vy` -/
  | xorReg (x y : RegNo)
  /-- 8xy4 `ADD Vx, Vy` -/
  | addReg (x y : RegNo)
  /-- 8xy5 `SUB Vx, Vy` -/
  | subReg (x y : RegNo)
  /-- 8xy6 `SHR Vx, Vy` -/
  | shr (x y : RegNo)
  /-- 8xy7 `SUBN Vx, Vy` -/
  | subn (x y : RegNo)
  /-- 8xyE `SHL Vx, Vy` -/
  | shl (x y : RegNo)
  /-- 9xy0 `SNE Vx, Vy` -/
  | sneReg (x y : RegNo)
  /-- Annn `LD I, nnn` -/
  | ldI (nnn : Addr)
  /-- Bnnn `JP V0, nnn` -/
  | jpV0 (nnn : Addr)
  /-- Cxkk `RND Vx, kk` -/
  | rnd (x : RegNo) (kk : Byte)
  /-- Dxyn `DRW Vx, Vy, n` -/
  | drw (x y : RegNo) (n : BitVec 4)
  /-- Ex9E `SKP Vx` -/
  | skp (x : RegNo)
  /-- ExA1 `SKNP Vx` -/
  | sknp (x : RegNo)
  /-- Fx07 `LD Vx, DT` -/
  | ldVxDT (x : RegNo)
  /-- Fx0A `LD Vx, K` -/
  | ldVxK (x : RegNo)
  /-- Fx15 `LD DT, Vx` -/
  | ldDTVx (x : RegNo)
  /-- Fx18 `LD ST, Vx` -/
  | ldSTVx (x : RegNo)
  /-- Fx1E `ADD I, Vx` -/
  | addI (x : RegNo)
  /-- Fx29 `LD F, Vx` -/
  | ldF (x : RegNo)
  /-- Fx33 `LD B, Vx` -/
  | ldB (x : RegNo)
  /-- Fx55 `LD [I], Vx`: here `x` is a count (R147) -/
  | ldMemVx (x : RegNo)
  /-- Fx65 `LD Vx, [I]`: here `x` is a count (R148) -/
  | ldVxMem (x : RegNo)
  /-- `NOP*`: a word no other row matches (R155); it keeps the whole word, so that no encoding is lost -/
  | nop (w : Word)
  deriving DecidableEq, Repr

end Sys2Proof
end

