-- ==== Sys2Proof/WellFormed.lean ====
section
/-! DEFINITION. The opcode map of rule R66 as data, and which instructions are well-formed. Every operand is in range by
its type; the one check left is that the word a `nop` carries is matched by none of the 34 rows (R67, R155). -/

namespace Sys2Proof

/-- One row of the opcode map (R66): a word `w` is this instruction iff `w &&& mask = pattern`. -/
structure OpcodeRow where
  number : Nat
  mnemonic : String
  pattern : Word
  mask : Word
  deriving DecidableEq, Repr

/-- Does the row match the word (R66)? -/
def OpcodeRow.hits (r : OpcodeRow) (w : Word) : Bool := w &&& r.mask == r.pattern

/-- Rows 1 to 9 of R66. -/
def opcodeRowsA : List OpcodeRow :=
  [⟨1, "CLS", 0x00E0, 0xFFFF⟩, ⟨2, "RET", 0x00EE, 0xFFFF⟩, ⟨3, "JP_nnn", 0x1000, 0xF000⟩,
   ⟨4, "CALL_nnn", 0x2000, 0xF000⟩, ⟨5, "SE_Vx__kk", 0x3000, 0xF000⟩, ⟨6, "SNE_Vx__kk", 0x4000, 0xF000⟩,
   ⟨7, "SE_Vx__Vy", 0x5000, 0xF00F⟩, ⟨8, "LD_Vx__kk", 0x6000, 0xF000⟩, ⟨9, "ADD_Vx__kk", 0x7000, 0xF000⟩]

/-- Rows 10 to 18 of R66, the ALU family. -/
def opcodeRowsB : List OpcodeRow :=
  [⟨10, "LD_Vx__Vy", 0x8000, 0xF00F⟩, ⟨11, "OR_Vx__Vy", 0x8001, 0xF00F⟩, ⟨12, "AND_Vx__Vy", 0x8002, 0xF00F⟩,
   ⟨13, "XOR_Vx__Vy", 0x8003, 0xF00F⟩, ⟨14, "ADD_Vx__Vy", 0x8004, 0xF00F⟩, ⟨15, "SUB_Vx__Vy", 0x8005, 0xF00F⟩,
   ⟨16, "SHR_Vx____Vy", 0x8006, 0xF00F⟩, ⟨17, "SUBN_Vx__Vy", 0x8007, 0xF00F⟩, ⟨18, "SHL_Vx____Vy", 0x800E, 0xF00F⟩]

/-- Rows 19 to 25 of R66. -/
def opcodeRowsC : List OpcodeRow :=
  [⟨19, "SNE_Vx__Vy", 0x9000, 0xF00F⟩, ⟨20, "LD_I__nnn", 0xA000, 0xF000⟩, ⟨21, "JP_V0__nnn", 0xB000, 0xF000⟩,
   ⟨22, "RND_Vx__kk", 0xC000, 0xF000⟩, ⟨23, "DRW_Vx__Vy__n", 0xD000, 0xF000⟩, ⟨24, "SKP_Vx", 0xE09E, 0xF0FF⟩,
   ⟨25, "SKNP_Vx", 0xE0A1, 0xF0FF⟩]

/-- Rows 26 to 34 of R66, the F family. -/
def opcodeRowsD : List OpcodeRow :=
  [⟨26, "LD_Vx__DT", 0xF007, 0xF0FF⟩, ⟨27, "LD_Vx__K", 0xF00A, 0xF0FF⟩, ⟨28, "LD_DT__Vx", 0xF015, 0xF0FF⟩,
   ⟨29, "LD_ST__Vx", 0xF018, 0xF0FF⟩, ⟨30, "ADD_I__Vx", 0xF01E, 0xF0FF⟩, ⟨31, "LD_F__Vx", 0xF029, 0xF0FF⟩,
   ⟨32, "LD_B__Vx", 0xF033, 0xF0FF⟩, ⟨33, "LD__I___Vx", 0xF055, 0xF0FF⟩, ⟨34, "LD_Vx___I", 0xF065, 0xF0FF⟩]

/-- The 34 recognised rows of the opcode map (R66). -/
def opcodeRows : List OpcodeRow := opcodeRowsA ++ opcodeRowsB ++ opcodeRowsC ++ opcodeRowsD

/-- A word is unrecognised when it fails all 34 matches (R67, R155). -/
def unrecognised (w : Word) : Bool := opcodeRows.all fun r => !r.hits w

/-- The row number (the column # of R66) of an instruction; row 35 is `NOP*`. -/
def Instr.row : Instr → Nat
  | .cls => 1
  | .ret => 2
  | .jp _ => 3
  | .call _ => 4
  | .seImm _ _ => 5
  | .sneImm _ _ => 6
  | .seReg _ _ => 7
  | .ldImm _ _ => 8
  | .addImm _ _ => 9
  | .ldReg _ _ => 10
  | .orReg _ _ => 11
  | .andReg _ _ => 12
  | .xorReg _ _ => 13
  | .addReg _ _ => 14
  | .subReg _ _ => 15
  | .shr _ _ => 16
  | .subn _ _ => 17
  | .shl _ _ => 18
  | .sneReg _ _ => 19
  | .ldI _ => 20
  | .jpV0 _ => 21
  | .rnd _ _ => 22
  | .drw _ _ _ => 23
  | .skp _ => 24
  | .sknp _ => 25
  | .ldVxDT _ => 26
  | .ldVxK _ => 27
  | .ldDTVx _ => 28
  | .ldSTVx _ => 29
  | .addI _ => 30
  | .ldF _ => 31
  | .ldB _ => 32
  | .ldMemVx _ => 33
  | .ldVxMem _ => 34
  | .nop _ => 35

/-- Well-formedness: every field fits by its type, and a `nop` carries an unrecognised word (R155). -/
def Instr.wf : Instr → Bool
  | .nop w => unrecognised w
  | .cls | .ret | .jp _ | .call _ | .seImm _ _ | .sneImm _ _ | .seReg _ _ | .ldImm _ _ | .addImm _ _ => true
  | .ldReg _ _ | .orReg _ _ | .andReg _ _ | .xorReg _ _ | .addReg _ _ | .subReg _ _ | .shr _ _ | .subn _ _ => true
  | .shl _ _ | .sneReg _ _ | .ldI _ | .jpV0 _ | .rnd _ _ | .drw _ _ _ | .skp _ | .sknp _ | .ldVxDT _ => true
  | .ldVxK _ | .ldDTVx _ | .ldSTVx _ | .addI _ | .ldF _ | .ldB _ | .ldMemVx _ | .ldVxMem _ => true

end Sys2Proof
end

