-- ==== Sys2Proof/Decode.lean ====
section
/-! DEFINITION. The fields of an instruction word (R61), the decoder (R64), the encoder (R62, R66), and the layout of a
word in memory (R46). -/

namespace Sys2Proof

/-- `op = iw[15:12]` (R61). -/
def fieldOp (w : Word) : BitVec 4 := w.extractLsb' 12 4

/-- `x = iw[11:8]` (R61). -/
def fieldX (w : Word) : RegNo := w.extractLsb' 8 4

/-- `y = iw[7:4]` (R61). -/
def fieldY (w : Word) : RegNo := w.extractLsb' 4 4

/-- `n = iw[3:0]`, also called `m` (R61). -/
def fieldN (w : Word) : BitVec 4 := w.extractLsb' 0 4

/-- `kk = iw[7:0]`, also called `fn` (R61, R62). -/
def fieldKK (w : Word) : Byte := w.extractLsb' 0 8

/-- `nnn = iw[11:0]` (R61). -/
def fieldNNN (w : Word) : Addr := w.extractLsb' 0 12

/-- Family 0 (R64): only the two whole words are recognised. -/
def decodeFamily0 (w : Word) : Instr :=
  if w = 0x00E0 then .cls
  else if w = 0x00EE then .ret
  else .nop w

/-- Family 5 (R64): recognised only with `m = 0`. -/
def decodeFamily5 (w : Word) : Instr :=
  if fieldN w = 0x0 then .seReg (fieldX w) (fieldY w) else .nop w

/-- Family 9 (R64): recognised only with `m = 0`. -/
def decodeFamily9 (w : Word) : Instr :=
  if fieldN w = 0x0 then .sneReg (fieldX w) (fieldY w) else .nop w

/-- Family 8 (R64): the sub-operation is `m`. -/
def decodeFamily8 (w : Word) : Instr :=
  if fieldN w = 0x0 then .ldReg (fieldX w) (fieldY w)
  else if fieldN w = 0x1 then .orReg (fieldX w) (fieldY w)
  else if fieldN w = 0x2 then .andReg (fieldX w) (fieldY w)
  else if fieldN w = 0x3 then .xorReg (fieldX w) (fieldY w)
  else if fieldN w = 0x4 then .addReg (fieldX w) (fieldY w)
  else if fieldN w = 0x5 then .subReg (fieldX w) (fieldY w)
  else if fieldN w = 0x6 then .shr (fieldX w) (fieldY w)
  else if fieldN w = 0x7 then .subn (fieldX w) (fieldY w)
  else if fieldN w = 0xE then .shl (fieldX w) (fieldY w)
  else .nop w

/-- Family E (R64): the function code is the low byte. -/
def decodeFamilyE (w : Word) : Instr :=
  if fieldKK w = 0x9E then .skp (fieldX w)
  else if fieldKK w = 0xA1 then .sknp (fieldX w)
  else .nop w

/-- Family F (R64): the function code is the low byte. -/
def decodeFamilyF (w : Word) : Instr :=
  if fieldKK w = 0x07 then .ldVxDT (fieldX w)
  else if fieldKK w = 0x0A then .ldVxK (fieldX w)
  else if fieldKK w = 0x15 then .ldDTVx (fieldX w)
  else if fieldKK w = 0x18 then .ldSTVx (fieldX w)
  else if fieldKK w = 0x1E then .addI (fieldX w)
  else if fieldKK w = 0x29 then .ldF (fieldX w)
  else if fieldKK w = 0x33 then .ldB (fieldX w)
  else if fieldKK w = 0x55 then .ldMemVx (fieldX w)
  else if fieldKK w = 0x65 then .ldVxMem (fieldX w)
  else .nop w

/-- Decode one word (R64): select the family by `op`, then match exactly on the bits the map fixes. Total: every word has
one meaning. -/
def decodeWord (w : Word) : Instr :=
  if fieldOp w = 0x0 then decodeFamily0 w
  else if fieldOp w = 0x1 then .jp (fieldNNN w)
  else if fieldOp w = 0x2 then .call (fieldNNN w)
  else if fieldOp w = 0x3 then .seImm (fieldX w) (fieldKK w)
  else if fieldOp w = 0x4 then .sneImm (fieldX w) (fieldKK w)
  else if fieldOp w = 0x5 then decodeFamily5 w
  else if fieldOp w = 0x6 then .ldImm (fieldX w) (fieldKK w)
  else if fieldOp w = 0x7 then .addImm (fieldX w) (fieldKK w)
  else if fieldOp w = 0x8 then decodeFamily8 w
  else if fieldOp w = 0x9 then decodeFamily9 w
  else if fieldOp w = 0xA then .ldI (fieldNNN w)
  else if fieldOp w = 0xB then .jpV0 (fieldNNN w)
  else if fieldOp w = 0xC then .rnd (fieldX w) (fieldKK w)
  else if fieldOp w = 0xD then .drw (fieldX w) (fieldY w) (fieldN w)
  else if fieldOp w = 0xE then decodeFamilyE w
  else decodeFamilyF w

/-- Compose a word from two bytes: the byte at the lower address is the high byte (R45, R46). -/
def wordOfBytes (hi lo : Byte) : Word := hi ++ lo

/-- The two bytes of a word in memory order (R46). -/
def bytesOfWord (w : Word) : List Byte := [w.extractLsb' 8 8, w.extractLsb' 0 8]

/-- Why a byte sequence is not decoded. No word is illegal (R67), so this is the only reason. -/
inductive DecodeError where
  /-- fewer than the two bytes of an instruction word are there (R60) -/
  | truncated (got : Nat)
  deriving DecidableEq, Repr

/-- Decode the first instruction of a byte sequence and answer it with the bytes after it (R60, R64). -/
def decode : List Byte → Except DecodeError (Instr × List Byte)
  | hi :: lo :: rest => .ok (decodeWord (wordOfBytes hi lo), rest)
  | [_] => .error (.truncated 1)
  | [] => .error (.truncated 0)

/-- Format `A` of R62. -/
def encodeA (op : BitVec 4) (nnn : Addr) : Word := op ++ nnn

/-- Format `I` of R62. -/
def encodeI (op : BitVec 4) (x : RegNo) (kk : Byte) : Word := (op ++ x) ++ kk

/-- Formats `R` and `D` of R62. -/
def encodeR (op : BitVec 4) (x y : RegNo) (m : BitVec 4) : Word := (op ++ x) ++ (y ++ m)

/-- Format `X` of R62: the low byte is a fixed function code. -/
def encodeX (op : BitVec 4) (x : RegNo) (fn : Byte) : Word := (op ++ x) ++ fn

/-- The word of an instruction, from the formats of R62 and the opcode map R66. -/
def encode : Instr → Word
  | .cls => 0x00E0
  | .ret => 0x00EE
  | .jp nnn => encodeA 0x1 nnn
  | .call nnn => encodeA 0x2 nnn
  | .seImm x kk => encodeI 0x3 x kk
  | .sneImm x kk => encodeI 0x4 x kk
  | .seReg x y => encodeR 0x5 x y 0x0
  | .ldImm x kk => encodeI 0x6 x kk
  | .addImm x kk => encodeI 0x7 x kk
  | .ldReg x y => encodeR 0x8 x y 0x0
  | .orReg x y => encodeR 0x8 x y 0x1
  | .andReg x y => encodeR 0x8 x y 0x2
  | .xorReg x y => encodeR 0x8 x y 0x3
  | .addReg x y => encodeR 0x8 x y 0x4
  | .subReg x y => encodeR 0x8 x y 0x5
  | .shr x y => encodeR 0x8 x y 0x6
  | .subn x y => encodeR 0x8 x y 0x7
  | .shl x y => encodeR 0x8 x y 0xE
  | .sneReg x y => encodeR 0x9 x y 0x0
  | .ldI nnn => encodeA 0xA nnn
  | .jpV0 nnn => encodeA 0xB nnn
  | .rnd x kk => encodeI 0xC x kk
  | .drw x y n => encodeR 0xD x y n
  | .skp x => encodeX 0xE x 0x9E
  | .sknp x => encodeX 0xE x 0xA1
  | .ldVxDT x => encodeX 0xF x 0x07
  | .ldVxK x => encodeX 0xF x 0x0A
  | .ldDTVx x => encodeX 0xF x 0x15
  | .ldSTVx x => encodeX 0xF x 0x18
  | .addI x => encodeX 0xF x 0x1E
  | .ldF x => encodeX 0xF x 0x29
  | .ldB x => encodeX 0xF x 0x33
  | .ldMemVx x => encodeX 0xF x 0x55
  | .ldVxMem x => encodeX 0xF x 0x65
  | .nop w => w

/-- The bytes of an instruction in memory order. -/
def encodeBytes (i : Instr) : List Byte := bytesOfWord (encode i)

/-- The instruction word the opcode table numbers `w`: its low `nbits` bits, the rest zero. -/
def tableWord (nbits w : Nat) : Word := BitVec.ofNat 16 (w % 2 ^ nbits)

/-- What the decoder reads from that word, laid out in memory order. -/
def decodeTableWord (nbits w : Nat) : Option Instr :=
  match decode (bytesOfWord (tableWord nbits w)) with
  | .ok (i, _) => some i
  | .error _ => none

end Sys2Proof
end

