-- ==== Sys2Proof/Machine/Flags.lean ====
section
/-! DEFINITION. Every value `VF` is given as a flag (R18): always 0 or 1. -/

namespace Sys2Proof.Machine

/-- A condition as a flag value. -/
def flagOf (c : Bool) : Byte := if c then 1 else 0

/-- 8xy4: 1 iff the exact sum exceeds 255 (R114). -/
def carryFlag (a b : Byte) : Byte := flagOf (255 < a.toNat + b.toNat)

/-- 8xy5 (`a` - `b`) and 8xy7 (with the operands the other way round): 1 iff `a > b`, strictly (R115, R117). -/
def greaterFlag (a b : Byte) : Byte := flagOf (b.toNat < a.toNat)

/-- 8xy6: the bit shifted out, bit 0 of the operand (R116). -/
def lowBitFlag (b : Byte) : Byte := flagOf (b.getLsbD 0)

/-- 8xyE: the bit shifted out, bit 7 of the operand (R118). -/
def highBitFlag (b : Byte) : Byte := flagOf (b.getLsbD 7)

/-- Dxyn: 1 iff some drawn pixel met a cell already 1 (R126). -/
def collisionFlag (met : Bool) : Byte := flagOf met

end Sys2Proof.Machine
end

