-- ==== Sys2Proof/Config.lean ====
section
/-! DEFINITION. What is fixed when the hardware is built: the sizes of rule R5, the three named parameters of rule R6
(`FONT`, `DRAW_EDGE`, `SHIFT_SOURCE`), and the one free value, the random byte of rule R23. -/

namespace Sys2Proof

/-- `MEM_SIZE` (R5): addresses 0x000 to 0xFFF exist. -/
abbrev memSize : Nat := 4096

/-- `PROG_BASE` (R5, R41): where `Load` copies a program and where `pc` starts. -/
abbrev progBase : Nat := 0x200

/-- The most bytes one `Load` may bring: 4096 - 0x200 (R195). -/
abbrev maxProgram : Nat := 3584

/-- `W` (R5): display columns. -/
abbrev dispWidth : Nat := 64

/-- `H` (R5): display rows. -/
abbrev dispHeight : Nat := 32

/-- `DRAW_EDGE` (R6, R128): what becomes of sprite pixels outside the grid. -/
inductive DrawEdge where
  | fault
  | clip
  | wrap
  deriving DecidableEq, Repr

/-- `SHIFT_SOURCE` (R6, R116, R118): the register the two shifts read. -/
inductive ShiftSource where
  | x
  | y
  deriving DecidableEq, Repr

/-- The named parameters of rule R6. The machine never changes them (R69); State carries them because the machine's
functions have no other argument for them (log 1). -/
structure Config where
  font : Vector Byte 80
  drawEdge : DrawEdge
  shiftSource : ShiftSource
  deriving DecidableEq, Repr

/-- The glyphs 0 to 7 of the default `FONT` (R47). PRESUMED (log 2): the spec itself marks these bytes as general knowledge. -/
def Config.glyphs0to7 : List Byte :=
  [0xF0, 0x90, 0x90, 0x90, 0xF0] ++ [0x20, 0x60, 0x20, 0x20, 0x70]
    ++ [0xF0, 0x10, 0xF0, 0x80, 0xF0] ++ [0xF0, 0x10, 0xF0, 0x10, 0xF0]
    ++ [0x90, 0x90, 0xF0, 0x10, 0x10] ++ [0xF0, 0x80, 0xF0, 0x10, 0xF0]
    ++ [0xF0, 0x80, 0xF0, 0x90, 0xF0] ++ [0xF0, 0x10, 0x20, 0x40, 0x40]

/-- The glyphs 8 to F of the default `FONT` (R47). PRESUMED (log 2). -/
def Config.glyphs8toF : List Byte :=
  [0xF0, 0x90, 0xF0, 0x90, 0xF0] ++ [0xF0, 0x90, 0xF0, 0x10, 0xF0]
    ++ [0xF0, 0x90, 0xF0, 0x90, 0x90] ++ [0xE0, 0x90, 0xE0, 0x90, 0xE0]
    ++ [0xF0, 0x80, 0x80, 0x80, 0xF0] ++ [0xE0, 0x90, 0x90, 0x90, 0xE0]
    ++ [0xF0, 0x80, 0xF0, 0x80, 0xF0] ++ [0xF0, 0x80, 0xF0, 0x80, 0x80]

/-- The default of `FONT`: 16 glyphs of 5 bytes (R47). -/
def Config.defaultFont : Vector Byte 80 := ⟨(Config.glyphs0to7 ++ Config.glyphs8toF).toArray, rfl⟩

/-- The defaults of rule R6. -/
def Config.default : Config where
  font := Config.defaultFont
  drawEdge := .fault
  shiftSource := .x

/-- FREE VALUE (R23, R103, log 3): the random byte the environment gives to the `n`-th unscripted draw. No body: nothing
can be proved of it. -/
opaque Config.freeRnd : Nat → Byte

end Sys2Proof
end

