-- ==== Sys2Proof/Machine/State.lean ====
section
/-! DEFINITION. The state of the machine (spec/10_state.md), the actions of rule R24, why a step can stop, and the state
after `Reset` (R29). Plain data throughout. -/

namespace Sys2Proof.Machine

/-- `MEM` (R40) as a list of address and byte pairs in one canonical form (`Memory.wf`): addresses strictly rising and
below 4096, no entry equal to what an unlisted address reads as (`Memory.unlisted`, the reset contents of R29). -/
abbrev Memory := List Host.Cell

/-- `DISP` (R21): 32 rows of 64 cells; bit `cx` of row `cy` is the cell at column `cx`, row `cy`, which is `DISP[64*cy + cx]`
(`Display.get` reads by that number). -/
abbrev Display := Vector (BitVec 64) 32

/-- The five actions of rule R24: one by the Execution Engine, four by the host. -/
inductive Action where
  /-- `Cycle`: the engine executes one instruction (R25) -/
  | cycle
  /-- `SetKeys(k16)`: the host replaces the 16 key flags -/
  | setKeys (k16 : BitVec 16)
  /-- `Tick`: the host counts the timers down (R176) -/
  | tick
  /-- `Load(bytes)`: the host copies a program into memory at 0x200 (R195) -/
  | load (bytes : List Byte)
  /-- `Reset`: the host puts every piece of state but `KEYS` at its reset value (R190) -/
  | reset
  deriving DecidableEq, Repr

/-- The machine's state: everything 10_state.md names, then the model's own fields for what comes from outside. -/
structure State where
  /-- the build-time parameters of R6; no action changes them -/
  cfg : Config
  /-- `V[0..15]` (R10); `V[15]` is `VF` (R11) -/
  v : Vector Byte 16
  /-- `I` (R12) -/
  i : Word
  /-- `pc` (R13) -/
  pc : Word
  /-- `STACK[0..15]` (R15) -/
  stack : Vector Word 16
  /-- `SP`, the entries in use, 0 to 16 (R15) -/
  sp : Fin 17
  /-- `DT` (R19) -/
  dt : Byte
  /-- `ST` (R20) -/
  st : Byte
  /-- `MEM` (R40) -/
  mem : Memory
  /-- `DISP[0..2047]` (R21) -/
  disp : Display
  /-- `KEYS[0..15]`, the input port (R22): bit `k` is key `k` -/
  keys : BitVec 16
  /-- `FAULT.CAUSE` (R27): 0 running, 1 to 6 halted, 7 never produced -/
  faultCause : BitVec 3
  /-- `FAULT.INFO` (R27) -/
  faultInfo : Word
  /-- MODEL'S OWN (log 6): no `Cycle` has been taken since the last `Reset`, so `Load` has a meaning (R195) -/
  fresh : Bool
  /-- MODEL'S OWN (log 4): the actions that come next, in order; when it is empty the engine takes a `Cycle` -/
  agenda : List Action
  /-- MODEL'S OWN (log 3): bytes the environment has ready for the next random draws (R23) -/
  rndIn : List Byte
  /-- MODEL'S OWN (log 3): how many draws found `rndIn` empty; each took a free value of its own -/
  draws : Nat
  deriving DecidableEq, Repr

/-- Why the machine stops with a fault. -/
inductive Fault where
  /-- Raised by `cycle`, when a `Cycle` is due while `FAULT.CAUSE` is not 0: `Cycle` is not enabled (R25) and a halted state
  is a failure (R161). Safe: the spec gives the engine no step there. The values latched stand in the state; they are
  repeated here for a reader. -/
  | halted (cause : BitVec 3) (info : Word)
  deriving DecidableEq, Repr

/-- Why a step has no meaning. -/
inductive Refusal where
  /-- Raised by `exec` for an instruction whose arm has no meaning yet; no arm is left so. Safe. -/
  | notModelled (mnemonic : String)
  /-- Raised by `hostLoad`: a `Load` of more than 3584 bytes has no meaning (R195). Safe: the spec says to refuse it. -/
  | loadTooLong (length : Nat)
  /-- Raised by `hostLoad`: a `Load` once a `Cycle` has been taken since the last `Reset` (R195). Safe: the spec says to
  give it no step. -/
  | loadAfterStart
  deriving DecidableEq, Repr

/-- The state after `Reset` of hardware built with the parameters `cfg` (R29), all keys released, nothing scheduled.
`FONT` reaches memory as what unlisted addresses read as, so nothing is listed. -/
def State.resetWith (cfg : Config) : State where
  cfg := cfg
  v := Vector.replicate 16 0
  i := 0
  pc := 0x0200
  stack := Vector.replicate 16 0
  sp := 0
  dt := 0
  st := 0
  mem := []
  disp := Vector.replicate 32 0
  keys := 0
  faultCause := 0
  faultInfo := 0
  fresh := true
  agenda := []
  rndIn := []
  draws := 0

/-- The machine right after reset (R29), built with the default parameters (R6). -/
def State.reset : State := State.resetWith Config.default

end Sys2Proof.Machine
end

