-- ==== Sys2Proof/Machine/Ops.lean ====
section
/-! DEFINITION. The named operations over registers, memory, stack and inputs, and taking a fault (R161). -/

namespace Sys2Proof.Machine

/-- What a step or a meaning answers. -/
abbrev Result := Host.Outcome State Fault Refusal

/-! ### Memory (20_memory.md) -/

/-- What an address reads as while nothing is listed for it: the reset contents (R29), `FONT` at 0 to 79, zero above. -/
def Memory.unlisted (font : Vector Byte 80) (a : Nat) : Byte :=
  if h : a < 80 then font[a] else 0

/-- The byte listed for an address. -/
def Memory.lookup : Memory → Nat → Option Byte
  | [], _ => none
  | (b, w) :: m, a => if a = b then some w else Memory.lookup m a

/-- `MEM[a]` (R42, one byte). -/
def Memory.read (font : Vector Byte 80) (m : Memory) (a : Nat) : Byte :=
  (Memory.lookup m a).getD (Memory.unlisted font a)

/-- List a byte for an address, keeping the order of addresses. -/
def Memory.insert : Memory → Nat → Byte → Memory
  | [], a, v => [(a, v)]
  | (b, w) :: m, a, v =>
    if a < b then (a, v) :: (b, w) :: m
    else if a = b then (a, v) :: m
    else (b, w) :: Memory.insert m a v

/-- Unlist an address. -/
def Memory.erase (m : Memory) (a : Nat) : Memory := m.filter fun c => c.1 != a

/-- `MEM[a] <- v` (R43), keeping the canonical form. -/
def Memory.write (font : Vector Byte 80) (m : Memory) (a : Nat) (v : Byte) : Memory :=
  if v = Memory.unlisted font a then Memory.erase m a else Memory.insert m a v

/-- The canonical form: addresses strictly rise, every one exists (R40), no entry repeats the reset contents. -/
abbrev Memory.wf (font : Vector Byte 80) (m : Memory) : Prop :=
  m.Pairwise (fun c d => c.1 < d.1) ∧ ∀ c ∈ m, c.1 < memSize ∧ c.2 ≠ Memory.unlisted font c.1

/-- One byte of memory. A read has no side effect at any address (R42). The caller has checked the range (`outOfRange`). -/
def State.byteAt (s : State) (a : Nat) : Byte := Memory.read s.cfg.font s.mem a

/-- Store one byte (R43). The caller has checked the range (`outOfRange`). -/
def State.putByte (s : State) (a : Nat) (b : Byte) : State :=
  { s with mem := Memory.write s.cfg.font s.mem a b }

/-- Store bytes at consecutive addresses, the lowest first. -/
def State.putBytes : State → Nat → List Byte → State
  | s, _, [] => s
  | s, a, b :: bs => (s.putByte a b).putBytes (a + 1) bs

/-- The `n` bytes from address `a` up. -/
def State.bytesFrom (s : State) (a n : Nat) : List Byte :=
  (List.range n).map fun k => s.byteAt (a + k)

/-- Would an access to the `n` bytes from `a` up reach above 0xFFF? Addresses are exact, neither masked nor reduced
(R44), and an empty access reaches nothing (R164). -/
def outOfRange (a n : Nat) : Bool := decide (0 < n ∧ 0xFFF < a + n - 1)

/-! ### Registers and control -/

/-- `V[x]` (R10). -/
def State.reg (s : State) (x : RegNo) : Byte := s.v[x.toNat]'x.isLt

/-- `V[x] <- b` (R10). -/
def State.setReg (s : State) (x : RegNo) (b : Byte) : State :=
  { s with v := s.v.set x.toNat b x.isLt }

/-- `V[k], V[k+1], .. <- ` the bytes of a list (R148); there are 16 registers. -/
def State.setRegs : State → Nat → List Byte → State
  | s, _, [] => s
  | s, k, b :: bs => (s.setReg (BitVec.ofNat 4 k) b).setRegs (k + 1) bs

/-- `V[0] .. V[n-1]` (R147). -/
def State.regsBelow (s : State) (n : Nat) : List Byte :=
  (List.range n).map fun k => s.reg (BitVec.ofNat 4 k)

/-- `VF` (R11), by its number. -/
abbrev vf : RegNo := 15

/-- The default advance, `pc <- (pc + 2) mod 65536` (R14 a). -/
def State.advance (s : State) : State := { s with pc := s.pc + 2 }

/-- What every skip does: 4 when the condition holds, else 2 (R14 b, R96). -/
def State.skipIf (s : State) (c : Bool) : State := { s with pc := if c then s.pc + 4 else s.pc + 2 }

/-! ### Faults (60_exceptions.md) -/

/-- The six faults (R162), with what each records. -/
inductive Trap where
  | fetchOutOfRange (pc : Word)
  | dataOutOfRange (a : Word)
  | stackOverflow
  | stackUnderflow
  | displayOutOfRange (ox oy : Byte)
  | keyIndexOutOfRange (k : Byte)
  deriving DecidableEq, Repr

/-- The code a fault latches in `FAULT.CAUSE` (R27, R162). -/
def trapCode : Trap → BitVec 3
  | .fetchOutOfRange _ => 1
  | .dataOutOfRange _ => 2
  | .stackOverflow => 3
  | .stackUnderflow => 4
  | .displayOutOfRange _ _ => 5
  | .keyIndexOutOfRange _ => 6

/-- The value a fault latches in `FAULT.INFO` (R162). -/
def trapInfo : Trap → Word
  | .fetchOutOfRange pc => pc
  | .dataOutOfRange a => a
  | .stackOverflow => 16
  | .stackUnderflow => 0
  | .displayOutOfRange ox oy => oy ++ ox
  | .keyIndexOutOfRange k => k.zeroExtend 16

/-- `raise F(info)` (R161): the machine goes on to a next state in which the cause and the value are latched and nothing
else has changed, `pc` included. There is no return from a fault (R171): only `Reset` clears the latch (`hostReset`). -/
def raise (t : Trap) (s : State) : Result :=
  .next { s with faultCause := trapCode t, faultInfo := trapInfo t }

/-- `FAULT.CAUSE != 0` (R161). -/
def State.halted (s : State) : Bool := s.faultCause != 0

/-- `max(I, 0x1000)`: the lowest out-of-range address an access from `I` up reaches (R44). -/
def lowestBeyond (i : Word) : Word := if i < 0x1000 then 0x1000 else i

/-- The fault of a data access to the `n` bytes from `I` up, if it has one (R44, R164). -/
def State.dataTrap (s : State) (n : Nat) : Option Trap :=
  if outOfRange s.i.toNat n then some (.dataOutOfRange (lowestBeyond s.i)) else none

/-! ### Stack (R15, R16) -/

/-- `Push(v)` (R16). -/
def State.push (s : State) (a : Word) : Except Trap State :=
  if h : s.sp.val < 16 then
    .ok { s with stack := s.stack.set s.sp.val a h, sp := ⟨s.sp.val + 1, by omega⟩ }
  else .error .stackOverflow

/-- `Pop()` (R16): the entry is left in place, merely out of use. -/
def State.pop (s : State) : Except Trap (Word × State) :=
  if h : 0 < s.sp.val then
    have hk : s.sp.val - 1 < 16 := by omega
    .ok (s.stack[s.sp.val - 1], { s with sp := ⟨s.sp.val - 1, by omega⟩ })
  else .error .stackUnderflow

/-! ### Inputs (R22, R23) -/

/-- `KEYS[k] = 1` (R22). -/
def State.keyDown (s : State) (k : Nat) : Bool := s.keys.getLsbD k

/-- The least `k` with `KEYS[k] = 1` (R138). -/
def State.lowestKey (s : State) : Option Nat := (List.range 16).find? s.keyDown

/-- The byte the next draw gives (R23): what the environment has ready, else a free value. -/
def State.rndByte (s : State) : Byte :=
  match s.rndIn with
  | b :: _ => b
  | [] => Config.freeRnd s.draws

/-- The inputs after one draw: every draw is a fresh one (R23). -/
def State.afterDraw (s : State) : State :=
  match s.rndIn with
  | _ :: bs => { s with rndIn := bs }
  | [] => { s with draws := s.draws + 1 }

/-! ### Fetch (R45) -/

/-- `iw <- MemRead(pc, 2)` (R45): big-endian, any parity of `pc` (R48); none when a byte lies above 0xFFF. -/
def State.fetch (s : State) : Option Word :=
  if outOfRange s.pc.toNat 2 then none
  else some (s.byteAt s.pc.toNat ++ s.byteAt (s.pc.toNat + 1))

end Sys2Proof.Machine
end

