-- ==== Sys2Proof/Machine/Operands.lean ====
section
/-! DEFINITION. Operand forms (R63, R145): widened immediates, the shift operand, the key index, decimal digits and the
address of a font glyph. -/

namespace Sys2Proof.Machine

/-- `zext_16(nnn)` (R63). -/
def addrOperand (nnn : Addr) : Word := nnn.zeroExtend 16

/-- `zext_16(b)` of a register's value (R83, R104). -/
def byteOperand (b : Byte) : Word := b.zeroExtend 16

/-- The effective address `I + k` of a data access, exact (R145, R44). -/
def State.dataAddr (s : State) (k : Nat) : Nat := s.i.toNat + k

/-- The operand of the two shifts: `V[x]`, or `V[y]` when `SHIFT_SOURCE = y` (R116, R118). -/
def State.shiftOperand (s : State) (x y : RegNo) : Byte :=
  match s.cfg.shiftSource with
  | .x => s.reg x
  | .y => s.reg y

/-- The key index `V[x]`, not masked: above 15 it is a fault (R94, R168). -/
def State.keyIndex (s : State) (x : RegNo) : Except Trap Nat :=
  if 15 < (s.reg x).toNat then .error (.keyIndexOutOfRange (s.reg x)) else .ok (s.reg x).toNat

/-- The decimal digits of a byte, hundreds first (R146). -/
def decimalDigits (b : Byte) : List Byte :=
  [b / 100, b / 10 % 10, b % 10]

/-- The address of the glyph of a hexadecimal digit, `5 * zext_16(d)` (R105). -/
def glyphAddr (d : Byte) : Word := 5 * byteOperand d

end Sys2Proof.Machine
end

