-- ==== Sys2Proof/Machine/Alu.lean ====
section
/-! DEFINITION. The ALU group (spec/43_alu.md): operands read first, then the result, then the flag last (R119). -/

namespace Sys2Proof.Machine

/-- The shape of 8xy0 to 8xy3: one result, no flag (R110 to R113). -/
def State.aluPlain (s : State) (x : RegNo) (r : Byte) : State := (s.setReg x r).advance

/-- The shape of the five flag-writing instructions: the result to `V[x]`, and last the flag to `VF` (R119). -/
def State.aluFlag (s : State) (x : RegNo) (r flag : Byte) : State := ((s.setReg x r).setReg vf flag).advance

/-- 8xy0 `LD Vx, Vy` (R110). -/
def execLdReg (x y : RegNo) (s : State) : Result := .next (s.aluPlain x (s.reg y))

/-- 8xy1 `OR Vx, Vy` (R111). -/
def execOrReg (x y : RegNo) (s : State) : Result := .next (s.aluPlain x (s.reg x ||| s.reg y))

/-- 8xy2 `AND Vx, Vy` (R112). -/
def execAndReg (x y : RegNo) (s : State) : Result := .next (s.aluPlain x (s.reg x &&& s.reg y))

/-- 8xy3 `XOR Vx, Vy` (R113). -/
def execXorReg (x y : RegNo) (s : State) : Result := .next (s.aluPlain x (s.reg x ^^^ s.reg y))

/-- 8xy4 `ADD Vx, Vy` (R114). -/
def execAddReg (x y : RegNo) (s : State) : Result :=
  .next (s.aluFlag x (s.reg x + s.reg y) (carryFlag (s.reg x) (s.reg y)))

/-- 8xy5 `SUB Vx, Vy` (R115). -/
def execSubReg (x y : RegNo) (s : State) : Result :=
  .next (s.aluFlag x (s.reg x - s.reg y) (greaterFlag (s.reg x) (s.reg y)))

/-- 8xy6 `SHR Vx, Vy` (R116). -/
def execShr (x y : RegNo) (s : State) : Result :=
  .next (s.aluFlag x (s.shiftOperand x y >>> 1) (lowBitFlag (s.shiftOperand x y)))

/-- 8xy7 `SUBN Vx, Vy` (R117). -/
def execSubn (x y : RegNo) (s : State) : Result :=
  .next (s.aluFlag x (s.reg y - s.reg x) (greaterFlag (s.reg y) (s.reg x)))

/-- 8xyE `SHL Vx, Vy` (R118). -/
def execShl (x y : RegNo) (s : State) : Result :=
  .next (s.aluFlag x (s.shiftOperand x y <<< 1) (highBitFlag (s.shiftOperand x y)))

end Sys2Proof.Machine
end

