-- ==== Sys2Proof/Machine/Control.lean ====
section
/-! DEFINITION. Control transfer (spec/40_control_transfer.md). Targets are unchecked (R84); there are no delay slots (R85). -/

namespace Sys2Proof.Machine

/-- 00EE `RET` (R80): the popped address is that of the `CALL`; control resumes 2 after it (C1). -/
def execRet (s : State) : Result :=
  match s.pop with
  | .ok (a, t) => .next { t with pc := a + 2 }
  | .error e => raise e s

/-- 1nnn `JP nnn` (R82). -/
def execJp (nnn : Addr) (s : State) : Result := .next { s with pc := addrOperand nnn }

/-- 2nnn `CALL nnn` (R81): the address pushed is that of the `CALL` itself. -/
def execCall (nnn : Addr) (s : State) : Result :=
  match s.push s.pc with
  | .ok t => .next { t with pc := addrOperand nnn }
  | .error e => raise e s

/-- Bnnn `JP V0, nnn` (R83): no further advance (C3). -/
def execJpV0 (nnn : Addr) (s : State) : Result :=
  .next { s with pc := addrOperand nnn + byteOperand (s.reg 0) }

end Sys2Proof.Machine
end

