-- ==== Sys2Proof/Machine/Transfer.lean ====
section
/-! DEFINITION. Memory transfer (spec/46_memory_transfer.md). Each checks the whole set of addresses before its first write
(R44). -/

namespace Sys2Proof.Machine

/-- Run an instruction that accesses the `n` bytes from `I` up: fault if one is out of range, else go on (R44). -/
def State.withData (s : State) (n : Nat) (go : Result) : Result :=
  match s.dataTrap n with
  | some t => raise t s
  | none => go

/-- Fx33 `LD B, Vx` (R146). -/
def execLdB (x : RegNo) (s : State) : Result :=
  s.withData 3 (.next (s.putBytes (s.dataAddr 0) (decimalDigits (s.reg x))).advance)

/-- Fx55 `LD [I], Vx` (R147): `V[0]` to `V[x-1]` are stored, then `I` grows by `x + 1`. -/
def execLdMemVx (x : RegNo) (s : State) : Result :=
  s.withData x.toNat
    (.next { s.putBytes (s.dataAddr 0) (s.regsBelow x.toNat) with i := s.i + x.zeroExtend 16 + 1 }.advance)

/-- Fx65 `LD Vx, [I]` (R148): `V[0]` to `V[x-1]` are loaded, `I` stays. -/
def execLdVxMem (x : RegNo) (s : State) : Result :=
  s.withData x.toNat (.next (s.setRegs 0 (s.bytesFrom (s.dataAddr 0) x.toNat)).advance)

end Sys2Proof.Machine
end

