-- ==== Sys2Proof/Machine/Display.lean ====
section
/-! DEFINITION. The display and the sprite compositer (spec/44_display.md). -/

namespace Sys2Proof.Machine

/-- The cell at column `cx`, row `cy` is `DISP[64*cy + cx]` (R21). -/
def cellIndex (cx cy : Nat) : Nat := dispWidth * cy + cx

/-- `DISP[k]` (R21): row `k / 64`, column `k mod 64`. There are 2048 cells. -/
def Display.get (d : Display) (k : Nat) : Bool :=
  if h : k < 2048 then (d[k / 64]'(by omega)).getLsbD (k % 64) else false

/-- `DISP[k] <- DISP[k] xor 1` (R126). -/
def Display.flip (d : Display) (k : Nat) : Display :=
  if h : k < 2048 then d.set (k / 64) (d[k / 64]'(by omega) ^^^ (1#64 <<< (k % 64))) (by omega) else d

/-- Every cell 0 (R125). -/
def Display.clear : Display := Vector.replicate 32 0

/-- Does a pixel lie inside the grid (R127)? -/
def onGrid (p : Nat × Nat) : Bool := decide (p.1 < dispWidth ∧ p.2 < dispHeight)

/-- The set bits of one sprite row drawn from column `ox` on display row `cy`: bit `7 - c` is column offset `c` (R127). -/
def rowPixels (ox cy : Nat) (row : Byte) : List (Nat × Nat) :=
  ((List.range 8).filter fun c => row.getLsbD (7 - c)).map fun c => (ox + c, cy)

/-- The set pixels of a sprite with its origin at `(ox, oy)`, row by row (R127): only set bits touch the display (R126). -/
def spritePixels (ox : Nat) : Nat → List Byte → List (Nat × Nat)
  | _, [] => []
  | oy, row :: rows => rowPixels ox oy row ++ spritePixels ox (oy + 1) rows

/-- The cells a sprite's set pixels fall on under `DRAW_EDGE`, or none when `fault` applies (R128). -/
def edgeCells (edge : DrawEdge) (ps : List (Nat × Nat)) : Option (List Nat) :=
  match edge with
  | .fault => if ps.all onGrid then some (ps.map fun p => cellIndex p.1 p.2) else none
  | .clip => some ((ps.filter onGrid).map fun p => cellIndex p.1 p.2)
  | .wrap => some (ps.map fun p => cellIndex (p.1 % dispWidth) (p.2 % dispHeight))

/-- Draw set pixels one after another: note a collision, then XOR the cell with 1 (R126). -/
def plot : List Nat → Display → Bool → Display × Bool
  | [], d, met => (d, met)
  | k :: ks, d, met => plot ks (d.flip k) (met || d.get k)

/-- 00E0 `CLS` (R125). -/
def execCls (s : State) : Result := .next { s with disp := Display.clear }.advance

/-- The set pixels of the sprite `DRW Vx, Vy, n` draws: the origin is read before `VF` is cleared (R126, R129 b). -/
def State.spriteOf (s : State) (x y : RegNo) (n : BitVec 4) : List (Nat × Nat) :=
  spritePixels (s.reg x).toNat (s.reg y).toNat (s.bytesFrom (s.dataAddr 0) n.toNat)

/-- Dxyn `DRW Vx, Vy, n` (R126, R128, R129): the data fault is tested before the display fault (R170). -/
def execDrw (x y : RegNo) (n : BitVec 4) (s : State) : Result :=
  s.withData n.toNat
    (match edgeCells s.cfg.drawEdge (s.spriteOf x y n) with
    | none => raise (.displayOutOfRange (s.reg x) (s.reg y)) s
    | some cells =>
      .next ({ s with disp := (plot cells s.disp false).1 }.setReg vf
        (collisionFlag (plot cells s.disp false).2)).advance)

end Sys2Proof.Machine
end

