-- ==== Sys2Proof/Machine/Immediate.lean ====
section
/-! DEFINITION. Immediate, index and random instructions (spec/42_immediate_index.md). None can fault; all advance. -/

namespace Sys2Proof.Machine

/-- 6xkk `LD Vx, kk` (R100). -/
def execLdImm (x : RegNo) (kk : Byte) (s : State) : Result :=
  .next (s.setReg x kk).advance

/-- 7xkk `ADD Vx, kk` (R101): wraps, no flag. -/
def execAddImm (x : RegNo) (kk : Byte) (s : State) : Result :=
  .next (s.setReg x (s.reg x + kk)).advance

/-- Annn `LD I, nnn` (R102). -/
def execLdI (nnn : Addr) (s : State) : Result :=
  .next { s with i := addrOperand nnn }.advance

/-- Cxkk `RND Vx, kk` (R103): the random byte of this Cycle ANDed with the mask. -/
def execRnd (x : RegNo) (kk : Byte) (s : State) : Result :=
  .next (s.afterDraw.setReg x (s.rndByte &&& kk)).advance

/-- Fx1E `ADD I, Vx` (R104): modulo 65536, not masked to 12 bits, no flag. -/
def execAddI (x : RegNo) (s : State) : Result :=
  .next { s with i := s.i + byteOperand (s.reg x) }.advance

/-- Fx29 `LD F, Vx` (R105): a value of 16 or more leaves `I` unchanged. -/
def execLdF (x : RegNo) (s : State) : Result :=
  .next { s with i := if (s.reg x).toNat < 16 then glyphAddr (s.reg x) else s.i }.advance

end Sys2Proof.Machine
end

