-- ==== Sys2Proof/Machine/Skips.lean ====
section
/-! DEFINITION. The six conditional skips (spec/41_skips.md): each writes `pc` only (R96). -/

namespace Sys2Proof.Machine

/-- 3xkk `SE Vx, kk` (R90). -/
def execSeImm (x : RegNo) (kk : Byte) (s : State) : Result := .next (s.skipIf (s.reg x == kk))

/-- 4xkk `SNE Vx, kk` (R91). -/
def execSneImm (x : RegNo) (kk : Byte) (s : State) : Result := .next (s.skipIf (s.reg x != kk))

/-- 5xy0 `SE Vx, Vy` (R92). -/
def execSeReg (x y : RegNo) (s : State) : Result := .next (s.skipIf (s.reg x == s.reg y))

/-- 9xy0 `SNE Vx, Vy` (R93). -/
def execSneReg (x y : RegNo) (s : State) : Result := .next (s.skipIf (s.reg x != s.reg y))

/-- Ex9E `SKP Vx` (R94). -/
def execSkp (x : RegNo) (s : State) : Result :=
  match s.keyIndex x with
  | .ok k => .next (s.skipIf (s.keyDown k))
  | .error e => raise e s

/-- ExA1 `SKNP Vx` (R95). -/
def execSknp (x : RegNo) (s : State) : Result :=
  match s.keyIndex x with
  | .ok k => .next (s.skipIf (!s.keyDown k))
  | .error e => raise e s

end Sys2Proof.Machine
end

