-- ==== Sys2Proof/Machine/TimersKeys.lean ====
section
/-! DEFINITION. Timer access and the key wait (spec/45_timers_keys.md). None can fault. -/

namespace Sys2Proof.Machine

/-- Fx07 `LD Vx, DT` (R135). -/
def execLdVxDT (x : RegNo) (s : State) : Result := .next (s.setReg x s.dt).advance

/-- Fx15 `LD DT, Vx` (R136). -/
def execLdDTVx (x : RegNo) (s : State) : Result := .next { s with dt := s.reg x }.advance

/-- Fx18 `LD ST, Vx` (R137). -/
def execLdSTVx (x : RegNo) (s : State) : Result := .next { s with st := s.reg x }.advance

/-- Fx0A `LD Vx, K` (R138): with no key pressed the Cycle completes and changes nothing, `pc` included (R139). -/
def execLdVxK (x : RegNo) (s : State) : Result :=
  match s.lowestKey with
  | none => .next s
  | some k => .next (s.setReg x (BitVec.ofNat 8 k)).advance

end Sys2Proof.Machine
end

