-- ==== Sys2Proof/Machine/Unrecognised.lean ====
section
/-! DEFINITION. Unrecognised words (spec/47_unrecognised.md). -/

namespace Sys2Proof.Machine

/-- `NOP*` (R155): only `pc` advances; the word's fields are ignored. -/
def execNop (_w : Word) (s : State) : Result := .next s.advance

end Sys2Proof.Machine
end

