-- ==== Sys2Proof/Machine/HostActions.lean ====
section
/-! DEFINITION. The host's four actions (R24): `SetKeys`, `Tick` (R176), `Load` (R195), `Reset` (R190). -/

namespace Sys2Proof.Machine

/-- `SetKeys(k16)` (R24): also while halted (R161). -/
def hostSetKeys (k16 : BitVec 16) (s : State) : State := { s with keys := k16 }

/-- One timer counted down by one, stopping at zero (R176). -/
def countDown (t : Byte) : Byte := if t = 0 then 0 else t - 1

/-- `Tick` (R176): also while halted (R161). -/
def hostTick (s : State) : State := { s with dt := countDown s.dt, st := countDown s.st }

/-- `Load(bytes)` (R195): at most 3584 bytes, and only between a `Reset` and the first `Cycle` after it. -/
def hostLoad (bytes : List Byte) (s : State) : Result :=
  if !s.fresh then .refused .loadAfterStart
  else if maxProgram < bytes.length then .refused (.loadTooLong bytes.length)
  else .next (s.putBytes progBase bytes)

/-- `Reset` (R190): every piece of state but `KEYS` takes its reset value (R29); the only way out of a halt (R171). What
the outside world will do next (`agenda`, `rndIn`) and how many free draws it has given are not the machine's to reset. -/
def hostReset (s : State) : State :=
  { State.resetWith s.cfg with keys := s.keys, agenda := s.agenda, rndIn := s.rndIn, draws := s.draws }

/-- What the host may read between actions, with no side effect (R24): the display, the sound timer and the fault register. -/
structure HostView where
  disp : Display
  st : Byte
  faultCause : BitVec 3
  faultInfo : Word
  deriving DecidableEq, Repr

/-- The host's reading of a state (R24, R20, R21, R27). -/
def State.hostView (s : State) : HostView := ⟨s.disp, s.st, s.faultCause, s.faultInfo⟩

end Sys2Proof.Machine
end

