-- ==== Sys2Proof/Machine/Cycle.lean ====
section
/-! DEFINITION. The engine's `Cycle` (R25) and one action of the agenda (R24, R26). -/

namespace Sys2Proof.Machine

/-- The state in which a Cycle's instruction is fetched and runs: a `Cycle` has now been taken since `Reset` (R195). -/
def State.begun (s : State) : State := { s with fresh := false }

/-- `Cycle` (R25): enabled iff no fault is latched; fetch, decode, execute exactly one instruction. -/
def cycle (s : State) : Result :=
  if s.halted then .fault (.halted s.faultCause s.faultInfo)
  else
    match s.fetch with
    | none => raise (.fetchOutOfRange s.pc) s.begun
    | some iw => exec (decodeWord iw) s.begun

/-- One action (R24). Actions are atomic (R26); the host's are enabled halted or not (R161, R190). -/
def act : Action → State → Result
  | .cycle, s => cycle s
  | .setKeys k16, s => .next (hostSetKeys k16 s)
  | .tick, s => .next (hostTick s)
  | .load bytes, s => hostLoad bytes s
  | .reset, s => .next (hostReset s)

/-- The action that comes next: the head of the agenda, else a `Cycle`. -/
def State.nextAction (s : State) : Action := s.agenda.headD .cycle

/-- The state with that action taken off the agenda. -/
def State.scheduled (s : State) : State := { s with agenda := s.agenda.tail }

/-- Store a table's instruction word at `pc` and make the next action a `Cycle` that is enabled: the agenda emptied and
the fault latch cleared (log 5). Where `pc` leaves no room for a word nothing is stored. -/
def State.placeWord (s : State) (w : Word) : State :=
  if outOfRange s.pc.toNat 2 then s
  else { s.putBytes s.pc.toNat (bytesOfWord w) with agenda := [], faultCause := 0, faultInfo := 0 }

end Sys2Proof.Machine
end

