-- ==== Sys2Proof/Machine/Step.lean ====
section
/-! DEFINITION. One step is one action of rule R24: the next one of the agenda, a `Cycle` when the agenda is empty. -/

namespace Sys2Proof.Machine

/-- Take the next action (R24, R26). -/
def step (s : State) : Host.Outcome State Fault Refusal := act s.nextAction s.scheduled

/-- The state with the opcode table's word placed where `step` fetches next (log 5). -/
def State.withFetchWord (s : State) (nbits w : Nat) : State := s.placeWord (tableWord nbits w)

end Sys2Proof.Machine
end

