-- ==== Sys2Proof/Safety.lean ====
section
/-! DEFINITION. The terms claims are stated in: what a safe run is, the end of a run (R203), the machine's invariants, and
what an instruction leaves unchanged (`Footprint`). -/

namespace Sys2Proof.Safety

open Sys2Proof.Machine

/-! ### Safe runs and the end of a run -/

/-- The engine is running: no fault is latched (R27). -/
abbrev running (s : State) : Prop := s.faultCause = 0

/-- The next action is a `Cycle` (R24): the agenda is empty or a `Cycle` heads it. -/
def cycleDue (s : State) : Prop := s.agenda = [] ∨ ∃ rest, s.agenda = .cycle :: rest

/-- `n` actions are safe from `s`: each has a next state and in none of them is a fault latched (a halted state is a
failure, R161). -/
def safeFor : Nat → State → Prop
  | 0, s => running s
  | n + 1, s => running s ∧ ∃ t, step s = .next t ∧ safeFor n t

/-- A final state (R203): `pc` addresses a jump to itself and no fault is latched. -/
def final (s : State) : Prop :=
  s.pc.toNat ≤ 0xFFE ∧ running s ∧
    s.byteAt s.pc.toNat = BitVec.ofNat 8 (0x10 + s.pc.toNat / 256) ∧
    s.byteAt (s.pc.toNat + 1) = BitVec.ofNat 8 (s.pc.toNat % 256)

/-! ### Invariants -/

/-- Memory is in canonical form, so every listed address exists (R40), and the fault register is as R27 says: code 7 is
never produced, and `FAULT.INFO` is 0 while `FAULT.CAUSE` is. -/
def memoryAndLatch (s : State) : Prop :=
  s.mem.wf s.cfg.font ∧ s.faultCause ≠ 7 ∧ (s.faultCause = 0 → s.faultInfo = 0)

/-- `pc` is at most 0x10FE (R83) and every stack entry in use is the address of a fetched `CALL`, at most 0x0FFE (R80). -/
def controlInBounds (s : State) : Prop :=
  s.pc.toNat ≤ 0x10FE ∧ ∀ k (h : k < 16), k < s.sp.val → (s.stack[k]'h).toNat ≤ 0xFFE

/-! ### What the spec's rules speak of -/

/-- A set bit of the sprite `DRW Vx, Vy, n` falls on column `cx`, row `cy` (R127): bit `7 - c` of the byte at `I + r` at
column `V[x] + c`, row `V[y] + r`; with `wrapped`, both reduced to the grid (R128). -/
def spriteLands (wrapped : Bool) (s : State) (x y : RegNo) (n : BitVec 4) (cx cy : Nat) : Prop :=
  ∃ r c, r < n.toNat ∧ c < 8 ∧ (s.byteAt (s.i.toNat + r)).getLsbD (7 - c) = true ∧
    if wrapped then ((s.reg x).toNat + c) % 64 = cx ∧ ((s.reg y).toNat + r) % 32 = cy
    else (s.reg x).toNat + c = cx ∧ (s.reg y).toNat + r = cy

/-- How many bytes from `I` up an instruction accesses (R49): `DRW` n, Fx33 3, Fx55 and Fx65 x, every other none. -/
def dataSpan : Instr → Nat
  | .drw _ _ n => n.toNat
  | .ldB _ => 3
  | .ldMemVx x => x.toNat
  | .ldVxMem x => x.toNat
  | .cls | .ret | .jp _ | .call _ | .seImm _ _ | .sneImm _ _ | .seReg _ _ | .ldImm _ _ | .addImm _ _ => 0
  | .ldReg _ _ | .orReg _ _ | .andReg _ _ | .xorReg _ _ | .addReg _ _ | .subReg _ _ | .shr _ _ | .subn _ _ => 0
  | .shl _ _ | .sneReg _ _ | .ldI _ | .jpV0 _ | .rnd _ _ | .skp _ | .sknp _ | .ldVxDT _ => 0
  | .ldVxK _ | .ldDTVx _ | .ldSTVx _ | .addI _ | .ldF _ | .nop _ => 0

/-- The access of `n` bytes from `I` up stays at or below 0xFFF (R44); an empty one always does (R164). -/
def dataFits (s : State) (n : Nat) : Prop := n = 0 ∨ s.i.toNat + n - 1 ≤ 0xFFF

/-- The next `pc` of a skip: 4 on when the condition holds, else 2 (R14 b). -/
def skipPc (s : State) (c : Prop) (p : Nat) : Prop :=
  (c → p = (s.pc.toNat + 4) % 65536) ∧ (¬c → p = (s.pc.toNat + 2) % 65536)

/-- How each instruction that does not fault leaves `pc`, `p` being the value after it (R14, a to e). -/
def pcRule (s : State) (p : Nat) : Instr → Prop
  | .jp nnn | .call nnn => p = nnn.toNat
  | .jpV0 nnn => p = nnn.toNat + (s.reg 0).toNat
  | .ret => ∃ h : s.sp.val - 1 < 16, p = ((s.stack[s.sp.val - 1]'h).toNat + 2) % 65536
  | .seImm x kk => skipPc s (s.reg x = kk) p
  | .sneImm x kk => skipPc s (s.reg x ≠ kk) p
  | .seReg x y => skipPc s (s.reg x = s.reg y) p
  | .sneReg x y => skipPc s (s.reg x ≠ s.reg y) p
  | .skp x => skipPc s (s.keyDown (s.reg x).toNat = true) p
  | .sknp x => skipPc s (s.keyDown (s.reg x).toNat = false) p
  | .ldVxK _ => (s.keys = 0 → p = s.pc.toNat) ∧ (s.keys ≠ 0 → p = (s.pc.toNat + 2) % 65536)
  | .cls | .ldImm _ _ | .addImm _ _ | .ldReg _ _ | .orReg _ _ | .andReg _ _ | .xorReg _ _ | .addReg _ _
  | .subReg _ _ | .shr _ _ | .subn _ _ | .shl _ _ | .ldI _ | .rnd _ _ | .drw _ _ _ | .ldVxDT _ | .ldDTVx _
  | .ldSTVx _ | .addI _ | .ldF _ | .ldB _ | .ldMemVx _ | .ldVxMem _ | .nop _ => p = (s.pc.toNat + 2) % 65536

/-! ### Frames -/

/-- What an instruction may change: registers, bytes of memory and stack entries by name, other parts by a flag. The
program counter is not part of a footprint. -/
structure Footprint where
  regs : List RegNo := []
  bytes : List Nat := []
  entries : List Nat := []
  i : Bool := false
  sp : Bool := false
  dt : Bool := false
  st : Bool := false
  disp : Bool := false
  draw : Bool := false

/-- Everything outside the footprint (and `pc`) is unchanged from `s` to `t`. -/
def Footprint.keeps (f : Footprint) (s t : State) : Prop :=
  (∀ r, r ∉ f.regs → t.reg r = s.reg r) ∧
  (∀ a, a ∉ f.bytes → t.byteAt a = s.byteAt a) ∧
  (∀ k (h : k < 16), k ∉ f.entries → t.stack[k]'h = s.stack[k]'h) ∧
  (f.i = false → t.i = s.i) ∧
  (f.sp = false → t.sp = s.sp) ∧
  (f.dt = false → t.dt = s.dt) ∧
  (f.st = false → t.st = s.st) ∧
  (f.disp = false → t.disp = s.disp) ∧
  (f.draw = false → t.rndIn = s.rndIn ∧ t.draws = s.draws) ∧
  t.cfg = s.cfg ∧ t.keys = s.keys ∧ t.faultCause = s.faultCause ∧ t.faultInfo = s.faultInfo ∧
  t.fresh = s.fresh ∧ t.agenda = s.agenda

/-- The `n` addresses from `a` up. -/
def addrsFrom (a n : Nat) : List Nat := (List.range n).map (a + ·)

/-- Apply a function to the next state, if there is one. -/
def mapNext (f : State → State) : Result → Result
  | .next t => .next (f t)
  | .fault e => .fault e
  | .refused r => .refused r

end Sys2Proof.Safety
end

