-- ==== Sys2Proof/Certificates/Slice0/Obligations.lean ====
section
/-! DEFINITION. What is claimed of the machine, for the provers. Each docstring names the rule or the section of spec/ it
formalises. Statements about `exec` hold for every form of the instruction; where a form faults, the statement says so. -/

open Sys2Proof Sys2Proof.Machine Sys2Proof.Safety

/-! ### Encoding -/

/-- R60 to R66: decoding the bytes of a well-formed instruction gives it back, with the bytes after it. -/
def Obligations.DecodeEncodeAgree : Prop :=
  ∀ (i : Instr) (rest : List Byte), i.wf = true → decode (encodeBytes i ++ rest) = .ok (i, rest)

/-- R64, "Decode is total": any two bytes decode, to a well-formed instruction whose encoding is those two bytes. -/
def Obligations.EncodeDecodeAgree : Prop :=
  ∀ (hi lo : Byte) (rest : List Byte),
    ∃ i, decode (hi :: lo :: rest) = .ok (i, rest) ∧ i.wf = true ∧ encodeBytes i = [hi, lo]

/-- R66 (that matching is exact, and that a word no row matches is the no-operation, is decision D17; log 14): a word is the
instruction of a row iff it matches the row; rows are disjoint; a word no row matches is row 35. -/
def Obligations.DecoderFollowsTheOpcodeMap : Prop :=
  ∀ w : Word,
    (∀ r ∈ opcodeRows, w &&& r.mask = r.pattern ↔ (decodeWord w).row = r.number) ∧
    (∀ r ∈ opcodeRows, ∀ q ∈ opcodeRows, w &&& r.mask = r.pattern → w &&& q.mask = q.pattern → r = q) ∧
    ((∀ r ∈ opcodeRows, w &&& r.mask ≠ r.pattern) ↔ decodeWord w = .nop w)

/-- 95_test_vectors.md Part 1: the words the source quotes decode as the section lists them. -/
def Obligations.SourceWordsDecode : Prop :=
  decode [0x6A, 0x05] = .ok (.ldImm 10 0x05, []) ∧ decode [0x6B, 0x03] = .ok (.ldImm 11 0x03, []) ∧
  decode [0x8A, 0xB4] = .ok (.addReg 10 11, []) ∧ decode [0xA2, 0x10] = .ok (.ldI 0x210, []) ∧
  decode [0xD0, 0x05] = .ok (.drw 0 0 5, []) ∧ decode [0x23, 0x00] = .ok (.call 0x300, []) ∧
  decode [0x00, 0xEE] = .ok (.ret, []) ∧ decode [0xF2, 0x0A] = .ok (.ldVxK 2, [])

/-! ### Steps and the host's actions -/

/-- R25: when a `Cycle` is due on a running machine and the two bytes at `pc` exist and decode to `i`, the step is `exec i`
on the state with that `Cycle` taken off the agenda and `Load` no longer open. -/
def Obligations.StepRunsTheDecodedInstruction : Prop :=
  ∀ (s : State) (i : Instr) (rest : List Byte), cycleDue s → running s → s.pc.toNat ≤ 0xFFE →
    decode (s.byteAt s.pc.toNat :: s.byteAt (s.pc.toNat + 1) :: rest) = .ok (i, rest) →
    step s = exec i { s with agenda := s.agenda.tail, fresh := false }

/-- R45: the word is big-endian, from any `pc` up to 0x0FFE; from 0x0FFF up the fetch raises `FetchOutOfRange(pc)`. -/
def Obligations.FetchIsBigEndianAndChecked : Prop :=
  ∀ s : State, cycleDue s → running s →
    (s.pc.toNat ≤ 0xFFE →
      ∃ iw : Word, iw.extractLsb' 8 8 = s.byteAt s.pc.toNat ∧ iw.extractLsb' 0 8 = s.byteAt (s.pc.toNat + 1) ∧
        step s = exec (decodeWord iw) { s with agenda := s.agenda.tail, fresh := false }) ∧
    (0xFFF ≤ s.pc.toNat →
      step s = .next { s with agenda := s.agenda.tail, fresh := false, faultCause := 1, faultInfo := s.pc })

/-- R25, R161, R171 (the mechanism is decision D10): with a fault latched a `Cycle` is not enabled. -/
def Obligations.HaltedEngineTakesNoCycle : Prop :=
  ∀ s : State, cycleDue s → ¬running s → step s = .fault (.halted s.faultCause s.faultInfo)

/-- R24, R161: `SetKeys` replaces the key flags and nothing else, halted or not. -/
def Obligations.SetKeysReplacesTheKeys : Prop :=
  ∀ (s : State) (k16 : BitVec 16) (rest : List Action), s.agenda = .setKeys k16 :: rest →
    ∃ t, step s = .next t ∧ (∀ k, k < 16 → t.keyDown k = k16.getLsbD k) ∧
      t = { s with agenda := rest, keys := t.keys }

/-- R176 (decision D19): each timer above 0 counts down by one, one at 0 stays, nothing else changes, halted or not. -/
def Obligations.TickCountsTheTimersDown : Prop :=
  ∀ (s : State) (rest : List Action), s.agenda = .tick :: rest →
    ∃ t, step s = .next t ∧ t.dt.toNat = s.dt.toNat - 1 ∧ t.st.toNat = s.st.toNat - 1 ∧
      t = { s with agenda := rest, dt := t.dt, st := t.st }

/-- R195 (decision D23): `Load` copies the bytes to 0x200 and up and changes nothing else; more than 3584 bytes, or a `Load`
once a `Cycle` has been taken, is refused. -/
def Obligations.LoadCopiesTheProgram : Prop :=
  ∀ (s : State) (bytes : List Byte) (rest : List Action), s.agenda = .load bytes :: rest →
    (s.fresh = true → bytes.length ≤ 3584 →
      ∃ t, step s = .next t ∧ (∀ j (h : j < bytes.length), t.byteAt (0x200 + j) = bytes[j]'h) ∧
        (∀ a, a < 0x200 ∨ 0x200 + bytes.length ≤ a → t.byteAt a = s.byteAt a) ∧
        t = { s with agenda := rest, mem := t.mem }) ∧
    (s.fresh = true → 3584 < bytes.length → step s = .refused (.loadTooLong bytes.length)) ∧
    (s.fresh = false → step s = .refused .loadAfterStart)

/-- R190, R171 (the zeros are decisions D2 and D3): `Reset` from any state, halted or not, clears everything but `KEYS`. -/
def Obligations.ResetActionClearsAllButKeys : Prop :=
  ∀ (s : State) (rest : List Action), s.agenda = .reset :: rest →
    ∃ t, step s = .next t ∧ t.pc = 0x0200 ∧ (∀ a (h : a < 80), t.byteAt a = s.cfg.font[a]'h) ∧
      (∀ a, 80 ≤ a → t.byteAt a = 0) ∧ (∀ r, t.reg r = 0) ∧ t.i = 0 ∧ t.sp = 0 ∧ t.dt = 0 ∧ t.st = 0 ∧
      (∀ k (h : k < 16), t.stack[k]'h = 0) ∧ (∀ k, k < 2048 → t.disp.get k = false) ∧ t.faultCause = 0 ∧
      t.faultInfo = 0 ∧ t.keys = s.keys ∧ t.cfg = s.cfg ∧ t.fresh = true ∧ t.agenda = rest

/-- R29 (the zeros are decisions D2 and D3; keys released is this model's choice, log 7): the state after reset. -/
def Obligations.ResetStateValues : Prop :=
  State.reset.pc = 0x0200 ∧ (∀ a (h : a < 80), State.reset.byteAt a = State.reset.cfg.font[a]'h) ∧
    (∀ a, 80 ≤ a → State.reset.byteAt a = 0) ∧ (∀ r, State.reset.reg r = 0) ∧ State.reset.i = 0 ∧
    State.reset.sp = 0 ∧ (∀ k (h : k < 16), State.reset.stack[k]'h = 0) ∧ State.reset.dt = 0 ∧ State.reset.st = 0 ∧
    (∀ k, k < 2048 → State.reset.disp.get k = false) ∧ State.reset.faultCause = 0 ∧ State.reset.faultInfo = 0 ∧
    State.reset.keys = 0

/-! ### Control transfer -/

/-- R82: 1nnn is `JP nnn`; it writes `pc` and nothing else. -/
def Obligations.JumpSetsThePc : Prop :=
  ∀ (s : State) (nnn : Addr), decodeWord (encodeA 0x1 nnn) = .jp nnn ∧
    ∃ t, exec (.jp nnn) s = .next t ∧ t.pc.toNat = nnn.toNat ∧ ({} : Footprint).keeps s t

/-- R83 (no advance after it is decision D18): `JP V0, nnn` goes to `nnn + V[0]`, not masked. -/
def Obligations.JumpV0AddsV0 : Prop :=
  ∀ (s : State) (nnn : Addr),
    ∃ t, exec (.jpV0 nnn) s = .next t ∧ t.pc.toNat = nnn.toNat + (s.reg 0).toNat ∧ ({} : Footprint).keeps s t

/-- R81, R16 (the overflow fault is decision D9): `CALL` pushes its own address; with 16 entries in use it faults. -/
def Obligations.CallPushesItsOwnAddress : Prop :=
  ∀ (s : State) (nnn : Addr),
    (∀ h : s.sp.val < 16,
      ∃ t, exec (.call nnn) s = .next t ∧ t.stack[s.sp.val]'h = s.pc ∧ t.sp.val = s.sp.val + 1 ∧
        t.pc.toNat = nnn.toNat ∧ ({ entries := [s.sp.val], sp := true } : Footprint).keeps s t) ∧
    (s.sp.val = 16 → exec (.call nnn) s = .next { s with faultCause := 3, faultInfo := 16 })

/-- R80, R16 (the underflow fault is decision D9): `RET` pops an address and resumes 2 after it; the entry stays in place. -/
def Obligations.ReturnResumesAfterTheCall : Prop :=
  ∀ s : State,
    (∀ (_ : 0 < s.sp.val) (h : s.sp.val - 1 < 16),
      ∃ t, exec .ret s = .next t ∧ t.pc.toNat = ((s.stack[s.sp.val - 1]'h).toNat + 2) % 65536 ∧
        t.sp.val = s.sp.val - 1 ∧ ({ sp := true } : Footprint).keeps s t) ∧
    (s.sp.val = 0 → exec .ret s = .next { s with faultCause := 4, faultInfo := 0 })

/-- 95_test_vectors.md S8 (scenario C): a return with the stack as a call left it resumes at the instruction after the
call, with the stack depth of before. -/
def Obligations.CallThenReturn : Prop :=
  ∀ (s : State) (nnn : Addr), s.sp.val < 16 →
    ∃ t, exec (.call nnn) s = .next t ∧ ∀ u : State, u.stack = t.stack → u.sp = t.sp →
      ∃ w, exec .ret u = .next w ∧ w.pc = s.pc + 2 ∧ w.sp = s.sp

/-! ### Skips -/

/-- R90 to R93: 3xkk, 4xkk, 5xy0 and 9xy0 are the four comparisons; each skips by 4 or goes on by 2, and writes `pc` only.
That 5xym and 9xym with `m` not 0 are no-operations is decision D17 (log 14). -/
def Obligations.CompareSkipsByFourOrTwo : Prop :=
  ∀ (s : State) (x y m : RegNo) (kk : Byte),
    (decodeWord (encodeI 0x3 x kk) = .seImm x kk ∧ decodeWord (encodeI 0x4 x kk) = .sneImm x kk ∧
      decodeWord (encodeR 0x5 x y 0) = .seReg x y ∧ decodeWord (encodeR 0x9 x y 0) = .sneReg x y) ∧
    (m ≠ 0 → decodeWord (encodeR 0x5 x y m) = .nop (encodeR 0x5 x y m) ∧
      decodeWord (encodeR 0x9 x y m) = .nop (encodeR 0x9 x y m)) ∧
    (∃ t, exec (.seImm x kk) s = .next t ∧ skipPc s (s.reg x = kk) t.pc.toNat ∧ ({} : Footprint).keeps s t) ∧
    (∃ t, exec (.sneImm x kk) s = .next t ∧ skipPc s (s.reg x ≠ kk) t.pc.toNat ∧ ({} : Footprint).keeps s t) ∧
    (∃ t, exec (.seReg x y) s = .next t ∧ skipPc s (s.reg x = s.reg y) t.pc.toNat ∧ ({} : Footprint).keeps s t) ∧
    (∃ t, exec (.sneReg x y) s = .next t ∧ skipPc s (s.reg x ≠ s.reg y) t.pc.toNat ∧ ({} : Footprint).keeps s t)

/-- R94, R95 (the fault is decision D16): the key skips test key `V[x]`; an index above 15 faults, not masked. -/
def Obligations.KeySkipsTestOneKey : Prop :=
  ∀ (s : State) (x : RegNo),
    ((s.reg x).toNat ≤ 15 →
      (∃ t, exec (.skp x) s = .next t ∧ skipPc s (s.keys.getLsbD (s.reg x).toNat = true) t.pc.toNat ∧
        ({} : Footprint).keeps s t) ∧
      (∃ t, exec (.sknp x) s = .next t ∧ skipPc s (s.keys.getLsbD (s.reg x).toNat = false) t.pc.toNat ∧
        ({} : Footprint).keeps s t)) ∧
    (15 < (s.reg x).toNat →
      exec (.skp x) s = .next { s with faultCause := 6, faultInfo := BitVec.ofNat 16 (s.reg x).toNat } ∧
      exec (.sknp x) s = .next { s with faultCause := 6, faultInfo := BitVec.ofNat 16 (s.reg x).toNat })

/-! ### Immediate, index and random -/

/-- R100, R101: 6xkk loads and 7xkk adds the immediate; the sum wraps and no flag is written. -/
def Obligations.ImmediateLoadAndAdd : Prop :=
  ∀ (s : State) (x : RegNo) (kk : Byte),
    (decodeWord (encodeI 0x6 x kk) = .ldImm x kk ∧ decodeWord (encodeI 0x7 x kk) = .addImm x kk) ∧
    (∃ t, exec (.ldImm x kk) s = .next t ∧ t.reg x = kk ∧ t.pc.toNat = (s.pc.toNat + 2) % 65536 ∧
      ({ regs := [x] } : Footprint).keeps s t) ∧
    (∃ t, exec (.addImm x kk) s = .next t ∧ (t.reg x).toNat = ((s.reg x).toNat + kk.toNat) % 256 ∧
      t.pc.toNat = (s.pc.toNat + 2) % 65536 ∧ ({ regs := [x] } : Footprint).keeps s t)

/-- R102, R105: under Annn `I` gets `nnn`; under Fx29 the address of a digit's glyph, or with `V[x]` above 15 its value
stays. -/
def Obligations.IndexLoadAndFontAddress : Prop :=
  ∀ (s : State) (x : RegNo) (nnn : Addr),
    (decodeWord (encodeA 0xA nnn) = .ldI nnn ∧ decodeWord (encodeX 0xF x 0x29) = .ldF x) ∧
    (∃ t, exec (.ldI nnn) s = .next t ∧ t.i.toNat = nnn.toNat ∧ t.pc.toNat = (s.pc.toNat + 2) % 65536 ∧
      ({ i := true } : Footprint).keeps s t) ∧
    (∃ t, exec (.ldF x) s = .next t ∧ ((s.reg x).toNat < 16 → t.i.toNat = 5 * (s.reg x).toNat) ∧
      (16 ≤ (s.reg x).toNat → t.i = s.i) ∧ t.pc.toNat = (s.pc.toNat + 2) % 65536 ∧
      ({ i := true } : Footprint).keeps s t)

/-- R104 (modulo 65536 is decision D7): `ADD I, Vx` is not masked to 12 bits and writes no flag. -/
def Obligations.AddToIndexIsUnmasked : Prop :=
  ∀ (s : State) (x : RegNo),
    ∃ t, exec (.addI x) s = .next t ∧ t.i.toNat = (s.i.toNat + (s.reg x).toNat) % 65536 ∧
      t.pc.toNat = (s.pc.toNat + 2) % 65536 ∧ ({ i := true } : Footprint).keeps s t

/-- R103, R23 (the free draw is decision D20): whatever the draw, no bit outside `kk` is set; and every value inside `kk`
comes from some draw the environment may have ready. -/
def Obligations.RandomByteIsMaskedAndFree : Prop :=
  ∀ (s : State) (x : RegNo) (kk : Byte),
    (∃ t, exec (.rnd x kk) s = .next t ∧ (∀ b, b < 8 → (t.reg x).getLsbD b = true → kk.getLsbD b = true) ∧
      t.pc.toNat = (s.pc.toNat + 2) % 65536 ∧ ({ regs := [x], draw := true } : Footprint).keeps s t) ∧
    (∀ v : Byte, v &&& kk = v → ∃ ready t, exec (.rnd x kk) { s with rndIn := ready } = .next t ∧ t.reg x = v)

/-! ### ALU -/

/-- R110 to R113: 8xy0 to 8xy3, move and the bitwise operations, write `V[x]` and no flag. -/
def Obligations.MoveAndBitwise : Prop :=
  ∀ (s : State) (x y : RegNo),
    (decodeWord (encodeR 0x8 x y 0) = .ldReg x y ∧ decodeWord (encodeR 0x8 x y 1) = .orReg x y ∧
      decodeWord (encodeR 0x8 x y 2) = .andReg x y ∧ decodeWord (encodeR 0x8 x y 3) = .xorReg x y) ∧
    (∃ t, exec (.ldReg x y) s = .next t ∧ t.reg x = s.reg y ∧ t.pc.toNat = (s.pc.toNat + 2) % 65536 ∧
      ({ regs := [x] } : Footprint).keeps s t) ∧
    (∃ t, exec (.orReg x y) s = .next t ∧
      (∀ b, b < 8 → (t.reg x).getLsbD b = ((s.reg x).getLsbD b || (s.reg y).getLsbD b)) ∧
      t.pc.toNat = (s.pc.toNat + 2) % 65536 ∧ ({ regs := [x] } : Footprint).keeps s t) ∧
    (∃ t, exec (.andReg x y) s = .next t ∧
      (∀ b, b < 8 → (t.reg x).getLsbD b = ((s.reg x).getLsbD b && (s.reg y).getLsbD b)) ∧
      t.pc.toNat = (s.pc.toNat + 2) % 65536 ∧ ({ regs := [x] } : Footprint).keeps s t) ∧
    (∃ t, exec (.xorReg x y) s = .next t ∧
      (∀ b, b < 8 → (t.reg x).getLsbD b = ((s.reg x).getLsbD b != (s.reg y).getLsbD b)) ∧
      t.pc.toNat = (s.pc.toNat + 2) % 65536 ∧ ({ regs := [x] } : Footprint).keeps s t)

/-- R114 (that `VF` ends holding the flag when x = 15 is decision D14): the sum modulo 256, and the carry in `VF`. -/
def Obligations.AddReportsItsCarry : Prop :=
  ∀ (s : State) (x y : RegNo),
    ∃ t, exec (.addReg x y) s = .next t ∧
      (x ≠ 15 → (t.reg x).toNat = ((s.reg x).toNat + (s.reg y).toNat) % 256) ∧
      (255 < (s.reg x).toNat + (s.reg y).toNat → t.reg 15 = 1) ∧
      ((s.reg x).toNat + (s.reg y).toNat ≤ 255 → t.reg 15 = 0) ∧
      t.pc.toNat = (s.pc.toNat + 2) % 65536 ∧ ({ regs := [x, 15] } : Footprint).keeps s t

/-- R115, R117 (x = 15: decision D14): both subtractions wrap modulo 256 and compare strictly: equal operands give 0. -/
def Obligations.SubtractComparesStrictly : Prop :=
  ∀ (s : State) (x y : RegNo),
    (∃ t, exec (.subReg x y) s = .next t ∧
      (x ≠ 15 → (t.reg x).toNat = ((s.reg x).toNat + 256 - (s.reg y).toNat) % 256) ∧
      ((s.reg y).toNat < (s.reg x).toNat → t.reg 15 = 1) ∧ ((s.reg x).toNat ≤ (s.reg y).toNat → t.reg 15 = 0) ∧
      t.pc.toNat = (s.pc.toNat + 2) % 65536 ∧ ({ regs := [x, 15] } : Footprint).keeps s t) ∧
    (∃ t, exec (.subn x y) s = .next t ∧
      (x ≠ 15 → (t.reg x).toNat = ((s.reg y).toNat + 256 - (s.reg x).toNat) % 256) ∧
      ((s.reg x).toNat < (s.reg y).toNat → t.reg 15 = 1) ∧ ((s.reg y).toNat ≤ (s.reg x).toNat → t.reg 15 = 0) ∧
      t.pc.toNat = (s.pc.toNat + 2) % 65536 ∧ ({ regs := [x, 15] } : Footprint).keeps s t)

/-- R116, R118 (the operand is the parameter of decision D15, both settings here; x = 15: decision D14): shifts by one, the
bit shifted out in `VF`. -/
def Obligations.ShiftsReportTheBitShiftedOut : Prop :=
  ∀ (s : State) (x y : RegNo) (b : Byte),
    (s.cfg.shiftSource = .x → b = s.reg x) → (s.cfg.shiftSource = .y → b = s.reg y) →
    (∃ t, exec (.shr x y) s = .next t ∧ (x ≠ 15 → (t.reg x).toNat = b.toNat / 2) ∧
      (t.reg 15).toNat = b.toNat % 2 ∧ t.pc.toNat = (s.pc.toNat + 2) % 65536 ∧
      ({ regs := [x, 15] } : Footprint).keeps s t) ∧
    (∃ t, exec (.shl x y) s = .next t ∧ (x ≠ 15 → (t.reg x).toNat = b.toNat * 2 % 256) ∧
      (t.reg 15).toNat = b.toNat / 128 ∧ t.pc.toNat = (s.pc.toNat + 2) % 65536 ∧
      ({ regs := [x, 15] } : Footprint).keeps s t)

/-! ### Display -/

/-- R125: 00E0, `CLS`, zeroes all 2048 cells and writes nothing else but `pc`. -/
def Obligations.ClearZeroesEveryCell : Prop :=
  decodeWord 0x00E0 = .cls ∧ ∀ s : State, ∃ t, exec .cls s = .next t ∧ (∀ k, k < 2048 → t.disp.get k = false) ∧
    t.pc.toNat = (s.pc.toNat + 2) % 65536 ∧ ({ disp := true } : Footprint).keeps s t

/-- R126, R127 (`DRAW_EDGE = fault` is decision D11): the data fault first, then the display fault, else every cell under a
set sprite bit is XORed with 1 and `VF` says whether one of them was 1. -/
def Obligations.DrawXorsTheSprite : Prop :=
  ∀ (s : State) (x y : RegNo) (n : BitVec 4), s.cfg.drawEdge = .fault →
    (¬dataFits s n.toNat → exec (.drw x y n) s =
      .next { s with faultCause := 2, faultInfo := BitVec.ofNat 16 (max s.i.toNat 0x1000) }) ∧
    (dataFits s n.toNat → (∃ cx cy, spriteLands false s x y n cx cy ∧ (63 < cx ∨ 31 < cy)) →
      exec (.drw x y n) s =
        .next { s with faultCause := 5, faultInfo := BitVec.ofNat 16 ((s.reg y).toNat * 256 + (s.reg x).toNat) }) ∧
    (dataFits s n.toNat → (∀ cx cy, spriteLands false s x y n cx cy → cx ≤ 63 ∧ cy ≤ 31) →
      ∃ t, exec (.drw x y n) s = .next t ∧
        (∀ cx cy, cx ≤ 63 → cy ≤ 31 →
          (t.disp.get (64 * cy + cx) ≠ s.disp.get (64 * cy + cx) ↔ spriteLands false s x y n cx cy)) ∧
        ((∃ cx cy, spriteLands false s x y n cx cy ∧ s.disp.get (64 * cy + cx) = true) → t.reg 15 = 1) ∧
        ((¬∃ cx cy, spriteLands false s x y n cx cy ∧ s.disp.get (64 * cy + cx) = true) → t.reg 15 = 0) ∧
        t.pc.toNat = (s.pc.toNat + 2) % 65536 ∧ ({ regs := [15], disp := true } : Footprint).keeps s t)

/-- R128 (the two other settings of decision D11): under `clip` a set bit outside the grid is ignored, under `wrap` it comes
back on the other side; neither raises `DisplayOutOfRange`. -/
def Obligations.DrawClipsOrWraps : Prop :=
  ∀ (s : State) (x y : RegNo) (n : BitVec 4) (wrapped : Bool),
    s.cfg.drawEdge = (if wrapped then .wrap else .clip) → dataFits s n.toNat →
      ∃ t, exec (.drw x y n) s = .next t ∧
        (∀ cx cy, cx ≤ 63 → cy ≤ 31 →
          (t.disp.get (64 * cy + cx) ≠ s.disp.get (64 * cy + cx) ↔ spriteLands wrapped s x y n cx cy)) ∧
        ((∃ cx cy, cx ≤ 63 ∧ cy ≤ 31 ∧ spriteLands wrapped s x y n cx cy ∧ s.disp.get (64 * cy + cx) = true) →
          t.reg 15 = 1) ∧
        ((¬∃ cx cy, cx ≤ 63 ∧ cy ≤ 31 ∧ spriteLands wrapped s x y n cx cy ∧ s.disp.get (64 * cy + cx) = true) →
          t.reg 15 = 0) ∧
        t.pc.toNat = (s.pc.toNat + 2) % 65536 ∧ ({ regs := [15], disp := true } : Footprint).keeps s t

/-- R129 (d), every setting of `DRAW_EDGE`: after a draw that did not fault, the same sprite at the same place restores the
display, and its `VF` is 1 iff a cell under a set sprite bit was 0 before the first draw. -/
def Obligations.DrawTwiceRestoresTheDisplay : Prop :=
  ∀ (s t u : State) (x y : RegNo) (n : BitVec 4), exec (.drw x y n) s = .next t → running t →
    u.reg x = s.reg x → u.reg y = s.reg y → u.i = s.i → u.cfg = s.cfg → (∀ a, u.byteAt a = s.byteAt a) →
    u.disp = t.disp →
      ∃ w, exec (.drw x y n) u = .next w ∧ w.disp = s.disp ∧ w.faultCause = u.faultCause ∧
        (w.reg 15 = 1 ↔ ∃ cx cy, cx ≤ 63 ∧ cy ≤ 31 ∧
          spriteLands (decide (s.cfg.drawEdge = .wrap)) s x y n cx cy ∧ s.disp.get (64 * cy + cx) = false)

/-! ### Timers and keys -/

/-- R135, R136 (which of the two reads is decision D21): the delay timer is read into and written from `V[x]`. -/
def Obligations.DelayTimerMoves : Prop :=
  ∀ (s : State) (x : RegNo),
    (∃ t, exec (.ldVxDT x) s = .next t ∧ t.reg x = s.dt ∧ t.pc.toNat = (s.pc.toNat + 2) % 65536 ∧
      ({ regs := [x] } : Footprint).keeps s t) ∧
    (∃ t, exec (.ldDTVx x) s = .next t ∧ t.dt = s.reg x ∧ t.pc.toNat = (s.pc.toNat + 2) % 65536 ∧
      ({ dt := true } : Footprint).keeps s t)

/-- R137: Fx18 writes the sound timer from `V[x]`. -/
def Obligations.SoundTimerIsWritten : Prop :=
  ∀ (s : State) (x : RegNo), decodeWord (encodeX 0xF x 0x18) = .ldSTVx x ∧
    ∃ t, exec (.ldSTVx x) s = .next t ∧ t.st = s.reg x ∧ t.pc.toNat = (s.pc.toNat + 2) % 65536 ∧
      ({ st := true } : Footprint).keeps s t

/-- R138: Fx0A with no key pressed changes nothing, `pc` included; else `V[x]` gets the least pressed key. -/
def Obligations.KeyWaitHoldsOrTakesTheLeastKey : Prop :=
  ∀ (s : State) (x : RegNo), decodeWord (encodeX 0xF x 0x0A) = .ldVxK x ∧
    ((∀ k, k < 16 → s.keys.getLsbD k = false) → exec (.ldVxK x) s = .next s) ∧
    (∀ k, k < 16 → s.keys.getLsbD k = true → (∀ j, j < k → s.keys.getLsbD j = false) →
      ∃ t, exec (.ldVxK x) s = .next t ∧ (t.reg x).toNat = k ∧ t.pc.toNat = (s.pc.toNat + 2) % 65536 ∧
        ({ regs := [x] } : Footprint).keeps s t)

/-! ### Memory transfer -/

/-- R146, R145 (`dataAddr k` is `I + k`; the fault is decision D6): hundreds, tens and units of `V[x]` at
`I`, `I+1`, `I+2`, or no byte at all. -/
def Obligations.DecimalDigitsAreStored : Prop :=
  ∀ (s : State) (x : RegNo),
    (s.i.toNat ≤ 0xFFD →
      ∃ t, exec (.ldB x) s = .next t ∧ (t.byteAt (s.dataAddr 0)).toNat = (s.reg x).toNat / 100 ∧
        (t.byteAt (s.dataAddr 1)).toNat = (s.reg x).toNat / 10 % 10 ∧
        (t.byteAt (s.dataAddr 2)).toNat = (s.reg x).toNat % 10 ∧ t.pc.toNat = (s.pc.toNat + 2) % 65536 ∧
        ({ bytes := addrsFrom (s.dataAddr 0) 3 } : Footprint).keeps s t) ∧
    (0xFFD < s.i.toNat → exec (.ldB x) s =
      .next { s with faultCause := 2, faultInfo := BitVec.ofNat 16 (max s.i.toNat 0x1000) })

/-- R147 (the fault is decision D6, modulo 65536 is D7): `V[0]` to `V[x-1]` are stored and `I` grows by `x + 1`. -/
def Obligations.RegisterDumpStoresBelowX : Prop :=
  ∀ (s : State) (x : RegNo),
    (dataFits s x.toNat →
      ∃ t, exec (.ldMemVx x) s = .next t ∧
        (∀ r : RegNo, r.toNat < x.toNat → t.byteAt (s.dataAddr r.toNat) = s.reg r) ∧
        t.i.toNat = (s.i.toNat + x.toNat + 1) % 65536 ∧ t.pc.toNat = (s.pc.toNat + 2) % 65536 ∧
        ({ bytes := addrsFrom (s.dataAddr 0) x.toNat, i := true } : Footprint).keeps s t) ∧
    (¬dataFits s x.toNat → exec (.ldMemVx x) s =
      .next { s with faultCause := 2, faultInfo := BitVec.ofNat 16 (max s.i.toNat 0x1000) })

/-- R148 (the fault is decision D6): `V[0]` to `V[x-1]` are loaded; `I` and `V[x]` to `V[15]` stay. -/
def Obligations.RegisterLoadFillsBelowX : Prop :=
  ∀ (s : State) (x : RegNo),
    (dataFits s x.toNat →
      ∃ t, exec (.ldVxMem x) s = .next t ∧
        (∀ r : RegNo, r.toNat < x.toNat → t.reg r = s.byteAt (s.dataAddr r.toNat)) ∧
        t.pc.toNat = (s.pc.toNat + 2) % 65536 ∧
        ({ regs := (List.range x.toNat).map (BitVec.ofNat 4) } : Footprint).keeps s t) ∧
    (¬dataFits s x.toNat → exec (.ldVxMem x) s =
      .next { s with faultCause := 2, faultInfo := BitVec.ofNat 16 (max s.i.toNat 0x1000) })

/-- R148, R149: after a dump, a load of the same count with `I` put back reads the dumped values. -/
def Obligations.LoadReadsBackADump : Prop :=
  ∀ (s t u : State) (x : RegNo), dataFits s x.toNat → exec (.ldMemVx x) s = .next t →
    u.i = s.i → u.mem = t.mem → u.cfg = t.cfg →
      ∃ w, exec (.ldVxMem x) u = .next w ∧ ∀ r : RegNo, r.toNat < x.toNat → w.reg r = s.reg r

/-- R52 (the spec derives it from R45 and R25): a fetch right after a dump sees the bytes just stored. -/
def Obligations.StoredBytesAreFetched : Prop :=
  ∀ (s t u : State) (x r q : RegNo), dataFits s x.toNat → exec (.ldMemVx x) s = .next t →
    r.toNat + 1 = q.toNat → q.toNat < x.toNat → u.mem = t.mem → u.cfg = t.cfg →
    u.pc.toNat = s.i.toNat + r.toNat → u.fetch = some (wordOfBytes (s.reg r) (s.reg q))

/-! ### Unrecognised words -/

/-- R155 (that the words of families 0, 5, 9, E and F count is decision D17): a word that fails all 34 matches decodes to the
no-operation, which writes `pc` only. -/
def Obligations.UnrecognisedWordOnlyAdvances : Prop :=
  ∀ (s : State) (w : Word), (∀ r ∈ opcodeRows, w &&& r.mask ≠ r.pattern) →
    decodeWord w = .nop w ∧
      ∃ t, exec (.nop w) s = .next t ∧ t.pc.toNat = (s.pc.toNat + 2) % 65536 ∧ ({} : Footprint).keeps s t

/-! ### Rules of the whole machine -/

/-- R67, R161, R139: no instruction is refused or stops: each has a next state, from every state. -/
def Obligations.EveryInstructionHasANextState : Prop :=
  ∀ (i : Instr) (s : State), ∃ t, exec i s = .next t

/-- R14: how each instruction leaves `pc`, a faulting one included. -/
def Obligations.PcAfterEachInstruction : Prop :=
  ∀ (i : Instr) (s t : State), running s → exec i s = .next t →
    (running t → pcRule s t.pc.toNat i) ∧ (¬running t → t.pc = s.pc)

/-- R161 (the mechanism is decision D10): a faulting Cycle latches the fault and changes nothing else. -/
def Obligations.FaultsArePrecise : Prop :=
  ∀ s t : State, cycleDue s → running s → step s = .next t → ¬running t →
    t = { s with agenda := s.agenda.tail, fresh := false, faultCause := t.faultCause, faultInfo := t.faultInfo }

/-- R162, R170 (the mechanism is decision D10): which instruction raises which fault, when, and what is recorded. -/
def Obligations.FaultTableIsComplete : Prop :=
  ∀ (i : Instr) (s t : State), running s → exec i s = .next t →
    (t.faultCause = 2 ↔ ¬dataFits s (dataSpan i)) ∧
    (t.faultCause = 2 → t.faultInfo.toNat = max s.i.toNat 0x1000) ∧
    (t.faultCause = 3 ↔ i.row = 4 ∧ s.sp.val = 16) ∧ (t.faultCause = 3 → t.faultInfo = 16) ∧
    (t.faultCause = 4 ↔ i.row = 2 ∧ s.sp.val = 0) ∧ (t.faultCause = 4 → t.faultInfo = 0) ∧
    (t.faultCause = 5 ↔ ∃ x y n cx cy, i = .drw x y n ∧ s.cfg.drawEdge = .fault ∧ dataFits s n.toNat ∧
      spriteLands false s x y n cx cy ∧ (63 < cx ∨ 31 < cy)) ∧
    (t.faultCause = 5 → ∀ x y n, i = .drw x y n →
      t.faultInfo.toNat = (s.reg y).toNat * 256 + (s.reg x).toNat) ∧
    (t.faultCause = 6 ↔ ∃ x, (i = .skp x ∨ i = .sknp x) ∧ 15 < (s.reg x).toNat) ∧
    (t.faultCause = 6 → ∀ x, i = .skp x ∨ i = .sknp x → t.faultInfo.toNat = (s.reg x).toNat) ∧
    t.faultCause ≠ 1 ∧ t.faultCause ≠ 7

/-- 10_state.md section 1, the column "written by": only the instructions named there change each part of the state (by
the row numbers of R66); no instruction changes the keys or the parameters. -/
def Obligations.OnlyTheNamedInstructionsWrite : Prop :=
  ∀ (i : Instr) (s t : State), exec i s = .next t →
    (t.i ≠ s.i → i.row ∈ [20, 30, 31, 33]) ∧ (t.stack ≠ s.stack → i.row = 4) ∧ (t.sp ≠ s.sp → i.row ∈ [2, 4]) ∧
    (t.dt ≠ s.dt → i.row = 28) ∧ (t.st ≠ s.st → i.row = 29) ∧ (t.mem ≠ s.mem → i.row ∈ [32, 33]) ∧
    (t.disp ≠ s.disp → i.row ∈ [1, 23]) ∧ (t.draws ≠ s.draws ∨ t.rndIn ≠ s.rndIn → i.row = 22) ∧
    t.keys = s.keys ∧ t.cfg = s.cfg ∧ t.fresh = s.fresh ∧ t.agenda = s.agenda

/-- R11, R18 (that the flag stays when x = 15 is decision D14): the six flag writers leave 0 or 1 in `VF` unless they fault;
any other instruction changes `VF` only by naming it as its destination. -/
def Obligations.FlagWritersLeaveZeroOrOne : Prop :=
  ∀ (i : Instr) (s t : State), running s → exec i s = .next t → running t →
    (i.row ∈ [14, 15, 16, 17, 18, 23] → t.reg 15 = 0 ∨ t.reg 15 = 1) ∧
    (i.row ∉ [14, 15, 16, 17, 18, 23] → t.reg 15 ≠ s.reg 15 → (∃ kk, i = .ldImm 15 kk ∨ i = .addImm 15 kk ∨
      i = .rnd 15 kk) ∨ (∃ y, i = .ldReg 15 y ∨ i = .orReg 15 y ∨ i = .andReg 15 y ∨ i = .xorReg 15 y) ∨
      i = .ldVxDT 15 ∨ i = .ldVxK 15)

/-- R20: no instruction reads `ST`: with another value in it, every instruction but Fx18 does the same and keeps it. -/
def Obligations.NoInstructionReadsTheSoundTimer : Prop :=
  ∀ (i : Instr) (s : State) (b : Byte), (∀ x, i ≠ .ldSTVx x) →
    exec i { s with st := b } = mapNext (fun t => { t with st := b }) (exec i s)

/-- R22: only Ex9E, ExA1 and Fx0A read the keys: with other keys, every other instruction does the same. -/
def Obligations.OnlyKeyInstructionsReadTheKeys : Prop :=
  ∀ (i : Instr) (s : State) (k16 : BitVec 16), i.row ∉ [24, 25, 27] →
    exec i { s with keys := k16 } = mapNext (fun t => { t with keys := k16 }) (exec i s)

/-- R177, R19: `DT` rises only in a `Cycle` that executes Fx15. -/
def Obligations.DelayTimerRisesOnlyByFx15 : Prop :=
  ∀ s t : State, step s = .next t → s.dt.toNat < t.dt.toNat →
    cycleDue s ∧ ∃ w x, s.fetch = some w ∧ decodeWord w = .ldDTVx x ∧ t.dt = s.reg x

/-- R69, R6: the parameters are fixed when the hardware is built: no action changes them. -/
def Obligations.ParametersNeverChange : Prop :=
  ∀ s t : State, step s = .next t → t.cfg = s.cfg

/-- R203 (a convention of the spec, decision D30): from a final state, with no host action scheduled, any number of Cycles
leaves the machine as it is and is safe; only the model's mark that a Cycle has been taken is set. -/
def Obligations.SelfJumpChangesNothing : Prop :=
  ∀ s : State, final s → s.agenda = [] →
    ∀ n, core.run (n + 1) s = .next { s with fresh := false } ∧ safeFor n s

/-! ### Invariants -/

/-- R40, R27, R162: every step keeps memory in canonical form with no address above 0xFFF, never latches code 7, and keeps
`FAULT.INFO` at 0 while no fault is latched. -/
def Obligations.StepKeepsMemoryAndLatch : Prop :=
  ∀ s t : State, memoryAndLatch s → step s = .next t → memoryAndLatch t

/-- R13, R80, R83: every step keeps `pc` at most 0x10FE and every stack entry in use at most 0x0FFE. -/
def Obligations.StepKeepsControlInBounds : Prop :=
  ∀ s t : State, controlInBounds s → step s = .next t → controlInBounds t

/-- Both invariants hold right after reset. -/
def Obligations.ResetMeetsTheInvariants : Prop :=
  memoryAndLatch State.reset ∧ controlInBounds State.reset
end

