-- ==== Sys2Proof/Laws/Decode.lean ====
section
/-! SUPPORT. Instruction words: the fields of an encoded word, putting a word together from its fields, and what a match
under each mask of the opcode map says about the fields. -/

namespace Sys2Proof

/-! ### Bit strings joined and cut -/

theorem extract_high {a b : Nat} (h : BitVec a) (l : BitVec b) : (h ++ l).extractLsb' b a = h := by
  ext k hk
  simp [BitVec.getLsbD_append, hk]

theorem extract_low {a b : Nat} (h : BitVec a) (l : BitVec b) : (h ++ l).extractLsb' 0 b = l := by
  ext k hk
  simp [BitVec.getLsbD_append, hk]

theorem extract_within_low {a b : Nat} (h : BitVec a) (l : BitVec b) (i n : Nat) (hn : i + n ≤ b) :
    (h ++ l).extractLsb' i n = l.extractLsb' i n := by
  ext k hk
  simp [BitVec.getLsbD_append]
  intro _
  omega

theorem extract_within_high {a b : Nat} (h : BitVec a) (l : BitVec b) (i n : Nat) :
    (h ++ l).extractLsb' (b + i) n = h.extractLsb' i n := by
  ext k hk
  simp [BitVec.getLsbD_append, Nat.add_assoc]

theorem append_extract {a b : Nat} (w : BitVec (a + b)) : w.extractLsb' b a ++ w.extractLsb' 0 b = w := by
  apply BitVec.eq_of_getLsbD_eq
  intro k hk
  rw [BitVec.getLsbD_append]
  by_cases h : k < b
  · simp [h]
  · have : k - b < a := by omega
    simp [h, this, show b + (k - b) = k by omega]

theorem append_injective {a b : Nat} {h h' : BitVec a} {l l' : BitVec b} (e : h ++ l = h' ++ l') : h = h' ∧ l = l' := by
  constructor
  · rw [← extract_high h l, e, extract_high]
  · rw [← extract_low h l, e, extract_low]

theorem extract_extract {n : Nat} (w : BitVec n) (i j a b : Nat) (h : j + b ≤ a) :
    (w.extractLsb' i a).extractLsb' j b = w.extractLsb' (i + j) b := by
  ext k hk
  simp [Nat.add_assoc]
  intro _
  omega

/-! ### The fields of an encoded word (R61, R62) -/

@[simp] theorem fieldOp_encodeA (op : BitVec 4) (nnn : Addr) : fieldOp (encodeA op nnn) = op := extract_high op nnn

@[simp] theorem fieldNNN_encodeA (op : BitVec 4) (nnn : Addr) : fieldNNN (encodeA op nnn) = nnn := extract_low op nnn

@[simp] theorem fieldOp_encodeI (op : BitVec 4) (x : RegNo) (kk : Byte) : fieldOp (encodeI op x kk) = op :=
  (extract_within_high (op ++ x) kk 4 4).trans (extract_high op x)

@[simp] theorem fieldX_encodeI (op : BitVec 4) (x : RegNo) (kk : Byte) : fieldX (encodeI op x kk) = x :=
  (extract_within_high (op ++ x) kk 0 4).trans (extract_low op x)

@[simp] theorem fieldKK_encodeI (op : BitVec 4) (x : RegNo) (kk : Byte) : fieldKK (encodeI op x kk) = kk :=
  extract_low (op ++ x) kk

@[simp] theorem fieldOp_encodeR (op : BitVec 4) (x y : RegNo) (m : BitVec 4) : fieldOp (encodeR op x y m) = op :=
  (extract_within_high (op ++ x) (y ++ m) 4 4).trans (extract_high op x)

@[simp] theorem fieldX_encodeR (op : BitVec 4) (x y : RegNo) (m : BitVec 4) : fieldX (encodeR op x y m) = x :=
  (extract_within_high (op ++ x) (y ++ m) 0 4).trans (extract_low op x)

@[simp] theorem fieldY_encodeR (op : BitVec 4) (x y : RegNo) (m : BitVec 4) : fieldY (encodeR op x y m) = y :=
  (extract_within_low (op ++ x) (y ++ m) 4 4 (by decide)).trans (extract_high y m)

@[simp] theorem fieldN_encodeR (op : BitVec 4) (x y : RegNo) (m : BitVec 4) : fieldN (encodeR op x y m) = m :=
  (extract_within_low (op ++ x) (y ++ m) 0 4 (by decide)).trans (extract_low y m)

@[simp] theorem fieldOp_encodeX (op : BitVec 4) (x : RegNo) (fn : Byte) : fieldOp (encodeX op x fn) = op :=
  fieldOp_encodeI op x fn

@[simp] theorem fieldX_encodeX (op : BitVec 4) (x : RegNo) (fn : Byte) : fieldX (encodeX op x fn) = x :=
  fieldX_encodeI op x fn

@[simp] theorem fieldKK_encodeX (op : BitVec 4) (x : RegNo) (fn : Byte) : fieldKK (encodeX op x fn) = fn :=
  fieldKK_encodeI op x fn

/-! ### A word from its fields -/

theorem encodeA_fields (w : Word) : encodeA (fieldOp w) (fieldNNN w) = w := append_extract (a := 4) (b := 12) w

theorem op_x_fields (w : Word) : fieldOp w ++ fieldX w = w.extractLsb' 8 8 := by
  have h := append_extract (a := 4) (b := 4) (w.extractLsb' 8 8)
  rwa [extract_extract _ _ _ _ _ (by decide), extract_extract _ _ _ _ _ (by decide)] at h

theorem y_n_fields (w : Word) : fieldY w ++ fieldN w = fieldKK w := by
  have h := append_extract (a := 4) (b := 4) (w.extractLsb' 0 8)
  rwa [extract_extract _ _ _ _ _ (by decide), extract_extract _ _ _ _ _ (by decide)] at h

theorem encodeI_fields (w : Word) : encodeI (fieldOp w) (fieldX w) (fieldKK w) = w := by
  unfold encodeI
  rw [op_x_fields]
  exact append_extract (a := 8) (b := 8) w

theorem encodeR_fields (w : Word) : encodeR (fieldOp w) (fieldX w) (fieldY w) (fieldN w) = w := by
  unfold encodeR
  rw [y_n_fields]
  exact encodeI_fields w

theorem encodeX_fields (w : Word) : encodeX (fieldOp w) (fieldX w) (fieldKK w) = w := encodeI_fields w

theorem encodeA_injective {op op' : BitVec 4} {nnn nnn' : Addr} (e : encodeA op nnn = encodeA op' nnn') :
    op = op' ∧ nnn = nnn' := append_injective e

theorem encodeI_injective {op op' : BitVec 4} {x x' : RegNo} {kk kk' : Byte} (e : encodeI op x kk = encodeI op' x' kk') :
    op = op' ∧ x = x' ∧ kk = kk' := by
  have h := append_injective e
  have h' := append_injective h.1
  exact ⟨h'.1, h'.2, h.2⟩

/-! ### Matches under the masks of the opcode map (R66) -/

/-- A match under mask 0xF000 fixes `op` alone. -/
theorem hits_op (w : Word) (op : BitVec 4) : w &&& 0xF000 = encodeA op 0 ↔ fieldOp w = op := by
  have h : w &&& 0xF000 = encodeA (fieldOp w) 0 := by
    conv => lhs; rw [← encodeA_fields w]
    refine (BitVec.and_append (x₁ := fieldOp w) (x₂ := 0xF) (y₁ := fieldNNN w) (y₂ := 0)).trans ?_
    rw [show fieldOp w &&& 0xF = fieldOp w from BitVec.and_allOnes, show fieldNNN w &&& 0 = 0 from BitVec.and_zero]
    rfl
  rw [h]
  exact ⟨fun e => (encodeA_injective e).1, fun e => by rw [e]⟩

/-- A match under mask 0xF0FF fixes `op` and the function code. -/
theorem hits_op_fn (w : Word) (op : BitVec 4) (fn : Byte) :
    w &&& 0xF0FF = encodeX op 0 fn ↔ fieldOp w = op ∧ fieldKK w = fn := by
  have h : w &&& 0xF0FF = encodeX (fieldOp w) 0 (fieldKK w) := by
    conv => lhs; rw [← encodeI_fields w]
    refine (BitVec.and_append (x₁ := fieldOp w ++ fieldX w) (x₂ := 0xF#4 ++ 0#4) (y₁ := fieldKK w) (y₂ := 0xFF)).trans ?_
    rw [BitVec.and_append, show fieldOp w &&& 0xF#4 = fieldOp w from BitVec.and_allOnes, BitVec.and_zero,
      show fieldKK w &&& 0xFF = fieldKK w from BitVec.and_allOnes]
    rfl
  rw [h]
  refine ⟨fun e => ?_, fun e => by rw [e.1, e.2]⟩
  have := encodeI_injective e
  exact ⟨this.1, this.2.2⟩

/-- A match under mask 0xF00F fixes `op` and `m`. -/
theorem hits_op_m (w : Word) (op m : BitVec 4) :
    w &&& 0xF00F = encodeR op 0 0 m ↔ fieldOp w = op ∧ fieldN w = m := by
  have h : w &&& 0xF00F = encodeR (fieldOp w) 0 0 (fieldN w) := by
    conv => lhs; rw [← encodeR_fields w]
    refine (BitVec.and_append (x₁ := fieldOp w ++ fieldX w) (x₂ := 0xF#4 ++ 0#4) (y₁ := fieldY w ++ fieldN w)
      (y₂ := 0#4 ++ 0xF#4)).trans ?_
    rw [BitVec.and_append, BitVec.and_append, show fieldOp w &&& 0xF#4 = fieldOp w from BitVec.and_allOnes,
      BitVec.and_zero, BitVec.and_zero, show fieldN w &&& 0xF#4 = fieldN w from BitVec.and_allOnes]
    rfl
  rw [h]
  refine ⟨fun e => ?_, fun e => by rw [e.1, e.2]⟩
  have := encodeI_injective (show encodeI (fieldOp w) 0 (0#4 ++ fieldN w) = encodeI op 0 (0#4 ++ m) from e)
  exact ⟨this.1, (append_injective this.2.2).2⟩

/-- A match under mask 0xFFFF fixes the whole word. -/
theorem hits_whole (w p : Word) : w &&& 0xFFFF = p ↔ w = p := by
  rw [show w &&& 0xFFFF = w from BitVec.and_allOnes]

/-- `hits_op` for a pattern written as a number. -/
theorem matches_op {w p : Word} (op : BitVec 4) (hp : encodeA op 0 = p) : w &&& 0xF000 = p ↔ fieldOp w = op :=
  hp ▸ hits_op w op

/-- `hits_op_m` for a pattern written as a number. -/
theorem matches_op_m {w p : Word} (op m : BitVec 4) (hp : encodeR op 0 0 m = p) :
    w &&& 0xF00F = p ↔ fieldOp w = op ∧ fieldN w = m := hp ▸ hits_op_m w op m

/-- `hits_op_fn` for a pattern written as a number. -/
theorem matches_op_fn {w p : Word} (op : BitVec 4) (fn : Byte) (hp : encodeX op 0 fn = p) :
    w &&& 0xF0FF = p ↔ fieldOp w = op ∧ fieldKK w = fn := hp ▸ hits_op_fn w op fn

/-! ### Decoding family by family (R64) -/

/-- The 16 families. -/
theorem op_cases (op : BitVec 4) :
    op = 0 ∨ op = 1 ∨ op = 2 ∨ op = 3 ∨ op = 4 ∨ op = 5 ∨ op = 6 ∨ op = 7 ∨ op = 8 ∨ op = 9 ∨ op = 10 ∨ op = 11 ∨
      op = 12 ∨ op = 13 ∨ op = 14 ∨ op = 15 := by
  revert op
  decide

section Families

variable {w : Word}

theorem decodeWord_op0 (h : fieldOp w = 0) : decodeWord w = decodeFamily0 w := by simp [decodeWord, h]

theorem decodeWord_op1 (h : fieldOp w = 1) : decodeWord w = .jp (fieldNNN w) := by simp [decodeWord, h]

theorem decodeWord_op2 (h : fieldOp w = 2) : decodeWord w = .call (fieldNNN w) := by simp [decodeWord, h]

theorem decodeWord_op3 (h : fieldOp w = 3) : decodeWord w = .seImm (fieldX w) (fieldKK w) := by simp [decodeWord, h]

theorem decodeWord_op4 (h : fieldOp w = 4) : decodeWord w = .sneImm (fieldX w) (fieldKK w) := by simp [decodeWord, h]

theorem decodeWord_op5 (h : fieldOp w = 5) : decodeWord w = decodeFamily5 w := by simp [decodeWord, h]

theorem decodeWord_op6 (h : fieldOp w = 6) : decodeWord w = .ldImm (fieldX w) (fieldKK w) := by simp [decodeWord, h]

theorem decodeWord_op7 (h : fieldOp w = 7) : decodeWord w = .addImm (fieldX w) (fieldKK w) := by simp [decodeWord, h]

theorem decodeWord_op8 (h : fieldOp w = 8) : decodeWord w = decodeFamily8 w := by simp [decodeWord, h]

theorem decodeWord_op9 (h : fieldOp w = 9) : decodeWord w = decodeFamily9 w := by simp [decodeWord, h]

theorem decodeWord_opA (h : fieldOp w = 10) : decodeWord w = .ldI (fieldNNN w) := by simp [decodeWord, h]

theorem decodeWord_opB (h : fieldOp w = 11) : decodeWord w = .jpV0 (fieldNNN w) := by simp [decodeWord, h]

theorem decodeWord_opC (h : fieldOp w = 12) : decodeWord w = .rnd (fieldX w) (fieldKK w) := by simp [decodeWord, h]

theorem decodeWord_opD (h : fieldOp w = 13) : decodeWord w = .drw (fieldX w) (fieldY w) (fieldN w) := by
  simp [decodeWord, h]

theorem decodeWord_opE (h : fieldOp w = 14) : decodeWord w = decodeFamilyE w := by simp [decodeWord, h]

theorem decodeWord_opF (h : fieldOp w = 15) : decodeWord w = decodeFamilyF w := by simp [decodeWord, h]

end Families

/-! ### Bytes and words (R46) -/

@[simp] theorem wordOfBytes_bytesOfWord (w : Word) : wordOfBytes (w.extractLsb' 8 8) (w.extractLsb' 0 8) = w :=
  append_extract (a := 8) (b := 8) w

theorem bytesOfWord_wordOfBytes (hi lo : Byte) : bytesOfWord (wordOfBytes hi lo) = [hi, lo] := by
  unfold bytesOfWord wordOfBytes
  rw [show BitVec.extractLsb' 8 8 (hi ++ lo) = hi from extract_high hi lo,
    show BitVec.extractLsb' 0 8 (hi ++ lo) = lo from extract_low hi lo]

end Sys2Proof
end

