-- ==== Sys2Proof/Laws/State.lean ====
section
/-! SUPPORT. One lemma per field per update: what each named operation leaves of every field of State, so that no later
proof unfolds a record update. -/

namespace Sys2Proof.Machine

variable (s : State)

/-! ### `setReg` -/

@[simp] theorem State.setReg_cfg (x : RegNo) (b : Byte) : (s.setReg x b).cfg = s.cfg := rfl
@[simp] theorem State.setReg_i (x : RegNo) (b : Byte) : (s.setReg x b).i = s.i := rfl
@[simp] theorem State.setReg_pc (x : RegNo) (b : Byte) : (s.setReg x b).pc = s.pc := rfl
@[simp] theorem State.setReg_stack (x : RegNo) (b : Byte) : (s.setReg x b).stack = s.stack := rfl
@[simp] theorem State.setReg_sp (x : RegNo) (b : Byte) : (s.setReg x b).sp = s.sp := rfl
@[simp] theorem State.setReg_dt (x : RegNo) (b : Byte) : (s.setReg x b).dt = s.dt := rfl
@[simp] theorem State.setReg_st (x : RegNo) (b : Byte) : (s.setReg x b).st = s.st := rfl
@[simp] theorem State.setReg_mem (x : RegNo) (b : Byte) : (s.setReg x b).mem = s.mem := rfl
@[simp] theorem State.setReg_disp (x : RegNo) (b : Byte) : (s.setReg x b).disp = s.disp := rfl
@[simp] theorem State.setReg_keys (x : RegNo) (b : Byte) : (s.setReg x b).keys = s.keys := rfl
@[simp] theorem State.setReg_faultCause (x : RegNo) (b : Byte) : (s.setReg x b).faultCause = s.faultCause := rfl
@[simp] theorem State.setReg_faultInfo (x : RegNo) (b : Byte) : (s.setReg x b).faultInfo = s.faultInfo := rfl
@[simp] theorem State.setReg_fresh (x : RegNo) (b : Byte) : (s.setReg x b).fresh = s.fresh := rfl
@[simp] theorem State.setReg_agenda (x : RegNo) (b : Byte) : (s.setReg x b).agenda = s.agenda := rfl
@[simp] theorem State.setReg_rndIn (x : RegNo) (b : Byte) : (s.setReg x b).rndIn = s.rndIn := rfl
@[simp] theorem State.setReg_draws (x : RegNo) (b : Byte) : (s.setReg x b).draws = s.draws := rfl

/-! ### `advance` and `skipIf` -/

@[simp] theorem State.advance_cfg : (s.advance).cfg = s.cfg := rfl
@[simp] theorem State.advance_v : (s.advance).v = s.v := rfl
@[simp] theorem State.advance_i : (s.advance).i = s.i := rfl
@[simp] theorem State.advance_stack : (s.advance).stack = s.stack := rfl
@[simp] theorem State.advance_sp : (s.advance).sp = s.sp := rfl
@[simp] theorem State.advance_dt : (s.advance).dt = s.dt := rfl
@[simp] theorem State.advance_st : (s.advance).st = s.st := rfl
@[simp] theorem State.advance_mem : (s.advance).mem = s.mem := rfl
@[simp] theorem State.advance_disp : (s.advance).disp = s.disp := rfl
@[simp] theorem State.advance_keys : (s.advance).keys = s.keys := rfl
@[simp] theorem State.advance_faultCause : (s.advance).faultCause = s.faultCause := rfl
@[simp] theorem State.advance_faultInfo : (s.advance).faultInfo = s.faultInfo := rfl
@[simp] theorem State.advance_fresh : (s.advance).fresh = s.fresh := rfl
@[simp] theorem State.advance_agenda : (s.advance).agenda = s.agenda := rfl
@[simp] theorem State.advance_rndIn : (s.advance).rndIn = s.rndIn := rfl
@[simp] theorem State.advance_draws : (s.advance).draws = s.draws := rfl

@[simp] theorem State.advance_pc : (s.advance).pc = s.pc + 2 := rfl

@[simp] theorem State.skipIf_cfg (c : Bool) : (s.skipIf c).cfg = s.cfg := rfl
@[simp] theorem State.skipIf_v (c : Bool) : (s.skipIf c).v = s.v := rfl
@[simp] theorem State.skipIf_i (c : Bool) : (s.skipIf c).i = s.i := rfl
@[simp] theorem State.skipIf_stack (c : Bool) : (s.skipIf c).stack = s.stack := rfl
@[simp] theorem State.skipIf_sp (c : Bool) : (s.skipIf c).sp = s.sp := rfl
@[simp] theorem State.skipIf_dt (c : Bool) : (s.skipIf c).dt = s.dt := rfl
@[simp] theorem State.skipIf_st (c : Bool) : (s.skipIf c).st = s.st := rfl
@[simp] theorem State.skipIf_mem (c : Bool) : (s.skipIf c).mem = s.mem := rfl
@[simp] theorem State.skipIf_disp (c : Bool) : (s.skipIf c).disp = s.disp := rfl
@[simp] theorem State.skipIf_keys (c : Bool) : (s.skipIf c).keys = s.keys := rfl
@[simp] theorem State.skipIf_faultCause (c : Bool) : (s.skipIf c).faultCause = s.faultCause := rfl
@[simp] theorem State.skipIf_faultInfo (c : Bool) : (s.skipIf c).faultInfo = s.faultInfo := rfl
@[simp] theorem State.skipIf_fresh (c : Bool) : (s.skipIf c).fresh = s.fresh := rfl
@[simp] theorem State.skipIf_agenda (c : Bool) : (s.skipIf c).agenda = s.agenda := rfl
@[simp] theorem State.skipIf_rndIn (c : Bool) : (s.skipIf c).rndIn = s.rndIn := rfl
@[simp] theorem State.skipIf_draws (c : Bool) : (s.skipIf c).draws = s.draws := rfl

@[simp] theorem State.skipIf_pc (c : Bool) : (s.skipIf c).pc = if c then s.pc + 4 else s.pc + 2 := rfl

/-! ### `putByte` -/

@[simp] theorem State.putByte_cfg (a : Nat) (b : Byte) : (s.putByte a b).cfg = s.cfg := rfl
@[simp] theorem State.putByte_v (a : Nat) (b : Byte) : (s.putByte a b).v = s.v := rfl
@[simp] theorem State.putByte_i (a : Nat) (b : Byte) : (s.putByte a b).i = s.i := rfl
@[simp] theorem State.putByte_pc (a : Nat) (b : Byte) : (s.putByte a b).pc = s.pc := rfl
@[simp] theorem State.putByte_stack (a : Nat) (b : Byte) : (s.putByte a b).stack = s.stack := rfl
@[simp] theorem State.putByte_sp (a : Nat) (b : Byte) : (s.putByte a b).sp = s.sp := rfl
@[simp] theorem State.putByte_dt (a : Nat) (b : Byte) : (s.putByte a b).dt = s.dt := rfl
@[simp] theorem State.putByte_st (a : Nat) (b : Byte) : (s.putByte a b).st = s.st := rfl
@[simp] theorem State.putByte_disp (a : Nat) (b : Byte) : (s.putByte a b).disp = s.disp := rfl
@[simp] theorem State.putByte_keys (a : Nat) (b : Byte) : (s.putByte a b).keys = s.keys := rfl
@[simp] theorem State.putByte_faultCause (a : Nat) (b : Byte) : (s.putByte a b).faultCause = s.faultCause := rfl
@[simp] theorem State.putByte_faultInfo (a : Nat) (b : Byte) : (s.putByte a b).faultInfo = s.faultInfo := rfl
@[simp] theorem State.putByte_fresh (a : Nat) (b : Byte) : (s.putByte a b).fresh = s.fresh := rfl
@[simp] theorem State.putByte_agenda (a : Nat) (b : Byte) : (s.putByte a b).agenda = s.agenda := rfl
@[simp] theorem State.putByte_rndIn (a : Nat) (b : Byte) : (s.putByte a b).rndIn = s.rndIn := rfl
@[simp] theorem State.putByte_draws (a : Nat) (b : Byte) : (s.putByte a b).draws = s.draws := rfl

/-! ### `aluPlain` and `aluFlag` -/

@[simp] theorem State.aluPlain_cfg (x : RegNo) (r : Byte) : (s.aluPlain x r).cfg = s.cfg := rfl
@[simp] theorem State.aluPlain_i (x : RegNo) (r : Byte) : (s.aluPlain x r).i = s.i := rfl
@[simp] theorem State.aluPlain_stack (x : RegNo) (r : Byte) : (s.aluPlain x r).stack = s.stack := rfl
@[simp] theorem State.aluPlain_sp (x : RegNo) (r : Byte) : (s.aluPlain x r).sp = s.sp := rfl
@[simp] theorem State.aluPlain_dt (x : RegNo) (r : Byte) : (s.aluPlain x r).dt = s.dt := rfl
@[simp] theorem State.aluPlain_st (x : RegNo) (r : Byte) : (s.aluPlain x r).st = s.st := rfl
@[simp] theorem State.aluPlain_mem (x : RegNo) (r : Byte) : (s.aluPlain x r).mem = s.mem := rfl
@[simp] theorem State.aluPlain_disp (x : RegNo) (r : Byte) : (s.aluPlain x r).disp = s.disp := rfl
@[simp] theorem State.aluPlain_keys (x : RegNo) (r : Byte) : (s.aluPlain x r).keys = s.keys := rfl
@[simp] theorem State.aluPlain_faultCause (x : RegNo) (r : Byte) : (s.aluPlain x r).faultCause = s.faultCause := rfl
@[simp] theorem State.aluPlain_faultInfo (x : RegNo) (r : Byte) : (s.aluPlain x r).faultInfo = s.faultInfo := rfl
@[simp] theorem State.aluPlain_fresh (x : RegNo) (r : Byte) : (s.aluPlain x r).fresh = s.fresh := rfl
@[simp] theorem State.aluPlain_agenda (x : RegNo) (r : Byte) : (s.aluPlain x r).agenda = s.agenda := rfl
@[simp] theorem State.aluPlain_rndIn (x : RegNo) (r : Byte) : (s.aluPlain x r).rndIn = s.rndIn := rfl
@[simp] theorem State.aluPlain_draws (x : RegNo) (r : Byte) : (s.aluPlain x r).draws = s.draws := rfl

@[simp] theorem State.aluPlain_pc (x : RegNo) (r : Byte) : (s.aluPlain x r).pc = s.pc + 2 := rfl

@[simp] theorem State.aluFlag_cfg (x : RegNo) (r g : Byte) : (s.aluFlag x r g).cfg = s.cfg := rfl
@[simp] theorem State.aluFlag_i (x : RegNo) (r g : Byte) : (s.aluFlag x r g).i = s.i := rfl
@[simp] theorem State.aluFlag_stack (x : RegNo) (r g : Byte) : (s.aluFlag x r g).stack = s.stack := rfl
@[simp] theorem State.aluFlag_sp (x : RegNo) (r g : Byte) : (s.aluFlag x r g).sp = s.sp := rfl
@[simp] theorem State.aluFlag_dt (x : RegNo) (r g : Byte) : (s.aluFlag x r g).dt = s.dt := rfl
@[simp] theorem State.aluFlag_st (x : RegNo) (r g : Byte) : (s.aluFlag x r g).st = s.st := rfl
@[simp] theorem State.aluFlag_mem (x : RegNo) (r g : Byte) : (s.aluFlag x r g).mem = s.mem := rfl
@[simp] theorem State.aluFlag_disp (x : RegNo) (r g : Byte) : (s.aluFlag x r g).disp = s.disp := rfl
@[simp] theorem State.aluFlag_keys (x : RegNo) (r g : Byte) : (s.aluFlag x r g).keys = s.keys := rfl
@[simp] theorem State.aluFlag_faultCause (x : RegNo) (r g : Byte) : (s.aluFlag x r g).faultCause = s.faultCause := rfl
@[simp] theorem State.aluFlag_faultInfo (x : RegNo) (r g : Byte) : (s.aluFlag x r g).faultInfo = s.faultInfo := rfl
@[simp] theorem State.aluFlag_fresh (x : RegNo) (r g : Byte) : (s.aluFlag x r g).fresh = s.fresh := rfl
@[simp] theorem State.aluFlag_agenda (x : RegNo) (r g : Byte) : (s.aluFlag x r g).agenda = s.agenda := rfl
@[simp] theorem State.aluFlag_rndIn (x : RegNo) (r g : Byte) : (s.aluFlag x r g).rndIn = s.rndIn := rfl
@[simp] theorem State.aluFlag_draws (x : RegNo) (r g : Byte) : (s.aluFlag x r g).draws = s.draws := rfl

@[simp] theorem State.aluFlag_pc (x : RegNo) (r g : Byte) : (s.aluFlag x r g).pc = s.pc + 2 := rfl

/-! ### `begun` and `scheduled` -/

@[simp] theorem State.begun_cfg : (s.begun).cfg = s.cfg := rfl
@[simp] theorem State.begun_v : (s.begun).v = s.v := rfl
@[simp] theorem State.begun_i : (s.begun).i = s.i := rfl
@[simp] theorem State.begun_pc : (s.begun).pc = s.pc := rfl
@[simp] theorem State.begun_stack : (s.begun).stack = s.stack := rfl
@[simp] theorem State.begun_sp : (s.begun).sp = s.sp := rfl
@[simp] theorem State.begun_dt : (s.begun).dt = s.dt := rfl
@[simp] theorem State.begun_st : (s.begun).st = s.st := rfl
@[simp] theorem State.begun_mem : (s.begun).mem = s.mem := rfl
@[simp] theorem State.begun_disp : (s.begun).disp = s.disp := rfl
@[simp] theorem State.begun_keys : (s.begun).keys = s.keys := rfl
@[simp] theorem State.begun_faultCause : (s.begun).faultCause = s.faultCause := rfl
@[simp] theorem State.begun_faultInfo : (s.begun).faultInfo = s.faultInfo := rfl
@[simp] theorem State.begun_agenda : (s.begun).agenda = s.agenda := rfl
@[simp] theorem State.begun_rndIn : (s.begun).rndIn = s.rndIn := rfl
@[simp] theorem State.begun_draws : (s.begun).draws = s.draws := rfl

@[simp] theorem State.begun_fresh : (s.begun).fresh = false := rfl

@[simp] theorem State.scheduled_cfg : (s.scheduled).cfg = s.cfg := rfl
@[simp] theorem State.scheduled_v : (s.scheduled).v = s.v := rfl
@[simp] theorem State.scheduled_i : (s.scheduled).i = s.i := rfl
@[simp] theorem State.scheduled_pc : (s.scheduled).pc = s.pc := rfl
@[simp] theorem State.scheduled_stack : (s.scheduled).stack = s.stack := rfl
@[simp] theorem State.scheduled_sp : (s.scheduled).sp = s.sp := rfl
@[simp] theorem State.scheduled_dt : (s.scheduled).dt = s.dt := rfl
@[simp] theorem State.scheduled_st : (s.scheduled).st = s.st := rfl
@[simp] theorem State.scheduled_mem : (s.scheduled).mem = s.mem := rfl
@[simp] theorem State.scheduled_disp : (s.scheduled).disp = s.disp := rfl
@[simp] theorem State.scheduled_keys : (s.scheduled).keys = s.keys := rfl
@[simp] theorem State.scheduled_faultCause : (s.scheduled).faultCause = s.faultCause := rfl
@[simp] theorem State.scheduled_faultInfo : (s.scheduled).faultInfo = s.faultInfo := rfl
@[simp] theorem State.scheduled_fresh : (s.scheduled).fresh = s.fresh := rfl
@[simp] theorem State.scheduled_rndIn : (s.scheduled).rndIn = s.rndIn := rfl
@[simp] theorem State.scheduled_draws : (s.scheduled).draws = s.draws := rfl

@[simp] theorem State.scheduled_agenda : (s.scheduled).agenda = s.agenda.tail := rfl

/-! ### `afterDraw` -/

@[simp] theorem State.afterDraw_cfg : (s.afterDraw).cfg = s.cfg := by unfold State.afterDraw; split <;> rfl
@[simp] theorem State.afterDraw_v : (s.afterDraw).v = s.v := by unfold State.afterDraw; split <;> rfl
@[simp] theorem State.afterDraw_i : (s.afterDraw).i = s.i := by unfold State.afterDraw; split <;> rfl
@[simp] theorem State.afterDraw_pc : (s.afterDraw).pc = s.pc := by unfold State.afterDraw; split <;> rfl
@[simp] theorem State.afterDraw_stack : (s.afterDraw).stack = s.stack := by unfold State.afterDraw; split <;> rfl
@[simp] theorem State.afterDraw_sp : (s.afterDraw).sp = s.sp := by unfold State.afterDraw; split <;> rfl
@[simp] theorem State.afterDraw_dt : (s.afterDraw).dt = s.dt := by unfold State.afterDraw; split <;> rfl
@[simp] theorem State.afterDraw_st : (s.afterDraw).st = s.st := by unfold State.afterDraw; split <;> rfl
@[simp] theorem State.afterDraw_mem : (s.afterDraw).mem = s.mem := by unfold State.afterDraw; split <;> rfl
@[simp] theorem State.afterDraw_disp : (s.afterDraw).disp = s.disp := by unfold State.afterDraw; split <;> rfl
@[simp] theorem State.afterDraw_keys : (s.afterDraw).keys = s.keys := by unfold State.afterDraw; split <;> rfl
@[simp] theorem State.afterDraw_faultCause : (s.afterDraw).faultCause = s.faultCause := by unfold State.afterDraw; split <;> rfl
@[simp] theorem State.afterDraw_faultInfo : (s.afterDraw).faultInfo = s.faultInfo := by unfold State.afterDraw; split <;> rfl
@[simp] theorem State.afterDraw_fresh : (s.afterDraw).fresh = s.fresh := by unfold State.afterDraw; split <;> rfl
@[simp] theorem State.afterDraw_agenda : (s.afterDraw).agenda = s.agenda := by unfold State.afterDraw; split <;> rfl

/-! ### The operations over lists, by induction on the list -/

@[simp] theorem State.putBytes_cfg (a : Nat) (bs : List Byte) : (s.putBytes a bs).cfg = s.cfg := by
  induction bs generalizing s a with
  | nil => rfl
  | cons b bs ih => exact (ih (s.putByte a b) (a + 1)).trans rfl

@[simp] theorem State.putBytes_v (a : Nat) (bs : List Byte) : (s.putBytes a bs).v = s.v := by
  induction bs generalizing s a with
  | nil => rfl
  | cons b bs ih => exact (ih (s.putByte a b) (a + 1)).trans rfl

@[simp] theorem State.putBytes_i (a : Nat) (bs : List Byte) : (s.putBytes a bs).i = s.i := by
  induction bs generalizing s a with
  | nil => rfl
  | cons b bs ih => exact (ih (s.putByte a b) (a + 1)).trans rfl

@[simp] theorem State.putBytes_pc (a : Nat) (bs : List Byte) : (s.putBytes a bs).pc = s.pc := by
  induction bs generalizing s a with
  | nil => rfl
  | cons b bs ih => exact (ih (s.putByte a b) (a + 1)).trans rfl

@[simp] theorem State.putBytes_stack (a : Nat) (bs : List Byte) : (s.putBytes a bs).stack = s.stack := by
  induction bs generalizing s a with
  | nil => rfl
  | cons b bs ih => exact (ih (s.putByte a b) (a + 1)).trans rfl

@[simp] theorem State.putBytes_sp (a : Nat) (bs : List Byte) : (s.putBytes a bs).sp = s.sp := by
  induction bs generalizing s a with
  | nil => rfl
  | cons b bs ih => exact (ih (s.putByte a b) (a + 1)).trans rfl

@[simp] theorem State.putBytes_dt (a : Nat) (bs : List Byte) : (s.putBytes a bs).dt = s.dt := by
  induction bs generalizing s a with
  | nil => rfl
  | cons b bs ih => exact (ih (s.putByte a b) (a + 1)).trans rfl

@[simp] theorem State.putBytes_st (a : Nat) (bs : List Byte) : (s.putBytes a bs).st = s.st := by
  induction bs generalizing s a with
  | nil => rfl
  | cons b bs ih => exact (ih (s.putByte a b) (a + 1)).trans rfl

@[simp] theorem State.putBytes_disp (a : Nat) (bs : List Byte) : (s.putBytes a bs).disp = s.disp := by
  induction bs generalizing s a with
  | nil => rfl
  | cons b bs ih => exact (ih (s.putByte a b) (a + 1)).trans rfl

@[simp] theorem State.putBytes_keys (a : Nat) (bs : List Byte) : (s.putBytes a bs).keys = s.keys := by
  induction bs generalizing s a with
  | nil => rfl
  | cons b bs ih => exact (ih (s.putByte a b) (a + 1)).trans rfl

@[simp] theorem State.putBytes_faultCause (a : Nat) (bs : List Byte) : (s.putBytes a bs).faultCause = s.faultCause := by
  induction bs generalizing s a with
  | nil => rfl
  | cons b bs ih => exact (ih (s.putByte a b) (a + 1)).trans rfl

@[simp] theorem State.putBytes_faultInfo (a : Nat) (bs : List Byte) : (s.putBytes a bs).faultInfo = s.faultInfo := by
  induction bs generalizing s a with
  | nil => rfl
  | cons b bs ih => exact (ih (s.putByte a b) (a + 1)).trans rfl

@[simp] theorem State.putBytes_fresh (a : Nat) (bs : List Byte) : (s.putBytes a bs).fresh = s.fresh := by
  induction bs generalizing s a with
  | nil => rfl
  | cons b bs ih => exact (ih (s.putByte a b) (a + 1)).trans rfl

@[simp] theorem State.putBytes_agenda (a : Nat) (bs : List Byte) : (s.putBytes a bs).agenda = s.agenda := by
  induction bs generalizing s a with
  | nil => rfl
  | cons b bs ih => exact (ih (s.putByte a b) (a + 1)).trans rfl

@[simp] theorem State.putBytes_rndIn (a : Nat) (bs : List Byte) : (s.putBytes a bs).rndIn = s.rndIn := by
  induction bs generalizing s a with
  | nil => rfl
  | cons b bs ih => exact (ih (s.putByte a b) (a + 1)).trans rfl

@[simp] theorem State.putBytes_draws (a : Nat) (bs : List Byte) : (s.putBytes a bs).draws = s.draws := by
  induction bs generalizing s a with
  | nil => rfl
  | cons b bs ih => exact (ih (s.putByte a b) (a + 1)).trans rfl

@[simp] theorem State.setRegs_cfg (k : Nat) (bs : List Byte) : (s.setRegs k bs).cfg = s.cfg := by
  induction bs generalizing s k with
  | nil => rfl
  | cons b bs ih => exact (ih (s.setReg (BitVec.ofNat 4 k) b) (k + 1)).trans rfl

@[simp] theorem State.setRegs_i (k : Nat) (bs : List Byte) : (s.setRegs k bs).i = s.i := by
  induction bs generalizing s k with
  | nil => rfl
  | cons b bs ih => exact (ih (s.setReg (BitVec.ofNat 4 k) b) (k + 1)).trans rfl

@[simp] theorem State.setRegs_pc (k : Nat) (bs : List Byte) : (s.setRegs k bs).pc = s.pc := by
  induction bs generalizing s k with
  | nil => rfl
  | cons b bs ih => exact (ih (s.setReg (BitVec.ofNat 4 k) b) (k + 1)).trans rfl

@[simp] theorem State.setRegs_stack (k : Nat) (bs : List Byte) : (s.setRegs k bs).stack = s.stack := by
  induction bs generalizing s k with
  | nil => rfl
  | cons b bs ih => exact (ih (s.setReg (BitVec.ofNat 4 k) b) (k + 1)).trans rfl

@[simp] theorem State.setRegs_sp (k : Nat) (bs : List Byte) : (s.setRegs k bs).sp = s.sp := by
  induction bs generalizing s k with
  | nil => rfl
  | cons b bs ih => exact (ih (s.setReg (BitVec.ofNat 4 k) b) (k + 1)).trans rfl

@[simp] theorem State.setRegs_dt (k : Nat) (bs : List Byte) : (s.setRegs k bs).dt = s.dt := by
  induction bs generalizing s k with
  | nil => rfl
  | cons b bs ih => exact (ih (s.setReg (BitVec.ofNat 4 k) b) (k + 1)).trans rfl

@[simp] theorem State.setRegs_st (k : Nat) (bs : List Byte) : (s.setRegs k bs).st = s.st := by
  induction bs generalizing s k with
  | nil => rfl
  | cons b bs ih => exact (ih (s.setReg (BitVec.ofNat 4 k) b) (k + 1)).trans rfl

@[simp] theorem State.setRegs_mem (k : Nat) (bs : List Byte) : (s.setRegs k bs).mem = s.mem := by
  induction bs generalizing s k with
  | nil => rfl
  | cons b bs ih => exact (ih (s.setReg (BitVec.ofNat 4 k) b) (k + 1)).trans rfl

@[simp] theorem State.setRegs_disp (k : Nat) (bs : List Byte) : (s.setRegs k bs).disp = s.disp := by
  induction bs generalizing s k with
  | nil => rfl
  | cons b bs ih => exact (ih (s.setReg (BitVec.ofNat 4 k) b) (k + 1)).trans rfl

@[simp] theorem State.setRegs_keys (k : Nat) (bs : List Byte) : (s.setRegs k bs).keys = s.keys := by
  induction bs generalizing s k with
  | nil => rfl
  | cons b bs ih => exact (ih (s.setReg (BitVec.ofNat 4 k) b) (k + 1)).trans rfl

@[simp] theorem State.setRegs_faultCause (k : Nat) (bs : List Byte) : (s.setRegs k bs).faultCause = s.faultCause := by
  induction bs generalizing s k with
  | nil => rfl
  | cons b bs ih => exact (ih (s.setReg (BitVec.ofNat 4 k) b) (k + 1)).trans rfl

@[simp] theorem State.setRegs_faultInfo (k : Nat) (bs : List Byte) : (s.setRegs k bs).faultInfo = s.faultInfo := by
  induction bs generalizing s k with
  | nil => rfl
  | cons b bs ih => exact (ih (s.setReg (BitVec.ofNat 4 k) b) (k + 1)).trans rfl

@[simp] theorem State.setRegs_fresh (k : Nat) (bs : List Byte) : (s.setRegs k bs).fresh = s.fresh := by
  induction bs generalizing s k with
  | nil => rfl
  | cons b bs ih => exact (ih (s.setReg (BitVec.ofNat 4 k) b) (k + 1)).trans rfl

@[simp] theorem State.setRegs_agenda (k : Nat) (bs : List Byte) : (s.setRegs k bs).agenda = s.agenda := by
  induction bs generalizing s k with
  | nil => rfl
  | cons b bs ih => exact (ih (s.setReg (BitVec.ofNat 4 k) b) (k + 1)).trans rfl

@[simp] theorem State.setRegs_rndIn (k : Nat) (bs : List Byte) : (s.setRegs k bs).rndIn = s.rndIn := by
  induction bs generalizing s k with
  | nil => rfl
  | cons b bs ih => exact (ih (s.setReg (BitVec.ofNat 4 k) b) (k + 1)).trans rfl

@[simp] theorem State.setRegs_draws (k : Nat) (bs : List Byte) : (s.setRegs k bs).draws = s.draws := by
  induction bs generalizing s k with
  | nil => rfl
  | cons b bs ih => exact (ih (s.setReg (BitVec.ofNat 4 k) b) (k + 1)).trans rfl

end Sys2Proof.Machine
end

