-- ==== Sys2Proof/Laws/Display.lean ====
section
/-! SUPPORT. The display and the sprite compositer: reading after a flip, which pixels a sprite has, and that drawing
distinct cells one after another is one XOR with all of them. -/

namespace Sys2Proof.Machine

/-! ### Cells -/

theorem Display.get_flip (d : Display) (k j : Nat) :
    (d.flip k).get j = if j = k ∧ k < 2048 then !d.get j else d.get j := by
  unfold Display.flip Display.get
  by_cases hk : k < 2048
  · by_cases hj : j < 2048
    · simp only [hk, hj, dif_pos, and_true]
      rw [Vector.getElem_set]
      by_cases hrow : k / 64 = j / 64
      · by_cases hcol : k % 64 = j % 64
        · have : j = k := by omega
          subst this
          simp [Nat.mod_lt]
        · have : j ≠ k := by rintro rfl; exact hcol rfl
          simp only [hrow, if_pos, this, if_false, BitVec.getLsbD_xor, BitVec.getLsbD_shiftLeft, BitVec.getLsbD_one]
          by_cases hlt : j % 64 < k % 64
          · simp [hlt]
          · have : j % 64 - k % 64 ≠ 0 := by omega
            simp [this]
      · have : j ≠ k := by rintro rfl; exact hrow rfl
        simp [hrow, this]
    · have : ¬ (j = k ∧ k < 2048) := by omega
      simp only [hj, this, dite_false, if_false]
  · simp [hk]

theorem Display.get_clear (k : Nat) : Display.clear.get k = false := by
  unfold Display.get Display.clear
  split <;> simp

/-- Displays with the same 2048 cells are equal. -/
theorem Display.ext_get {d e : Display} (h : ∀ k, k < 2048 → d.get k = e.get k) : d = e := by
  apply Vector.ext
  intro r hr
  apply BitVec.eq_of_getLsbD_eq
  intro c hc
  have := h (64 * r + c) (by omega)
  unfold Display.get at this
  rw [dif_pos (by omega), dif_pos (by omega)] at this
  have e1 : (64 * r + c) / 64 = r := by omega
  have e2 : (64 * r + c) % 64 = c := by omega
  simpa only [e1, e2] using this

/-! ### Plotting -/

theorem plot_snd_of_met (ks : List Nat) (d : Display) : (plot ks d true).2 = true := by
  induction ks generalizing d with
  | nil => rfl
  | cons k ks ih => simp [plot, ih]

/-- Plotting distinct cells XORs each of them once. -/
theorem plot_get (ks : List Nat) (d : Display) (met : Bool) (j : Nat) (hn : ks.Nodup) (hk : ∀ k ∈ ks, k < 2048) :
    (plot ks d met).1.get j = (d.get j != decide (j ∈ ks)) := by
  induction ks generalizing d met with
  | nil => simp [plot]
  | cons k ks ih =>
    rw [List.nodup_cons] at hn
    rw [plot, ih _ _ hn.2 fun a ha => hk a (List.mem_cons_of_mem _ ha), Display.get_flip]
    have hk' := hk k List.mem_cons_self
    by_cases hj : j = k
    · subst hj
      simp [hn.1, hk']
    · simp [hj]

/-- Plotting distinct cells reports a collision iff one of them was 1 before. -/
theorem plot_met (ks : List Nat) (d : Display) (met : Bool) (hn : ks.Nodup) :
    (plot ks d met).2 = (met || ks.any d.get) := by
  induction ks generalizing d met with
  | nil => simp [plot]
  | cons k ks ih =>
    rw [List.nodup_cons] at hn
    have : ks.any (d.flip k).get = ks.any d.get := by
      rw [Bool.eq_iff_iff]
      simp only [List.any_eq_true, Display.get_flip]
      constructor
      · rintro ⟨a, ha, hg⟩
        exact ⟨a, ha, by rwa [if_neg (by rintro ⟨rfl, -⟩; exact hn.1 ha)] at hg⟩
      · rintro ⟨a, ha, hg⟩
        exact ⟨a, ha, by rwa [if_neg (by rintro ⟨rfl, -⟩; exact hn.1 ha)]⟩
    rw [plot, ih _ _ hn.2, this]
    simp [Bool.or_assoc]

/-! ### The pixels of a sprite -/

theorem mem_rowPixels (ox cy : Nat) (row : Byte) (p : Nat × Nat) :
    p ∈ rowPixels ox cy row ↔ ∃ c, c < 8 ∧ row.getLsbD (7 - c) = true ∧ p = (ox + c, cy) := by
  simp only [rowPixels, List.mem_map, List.mem_filter, List.mem_range]
  constructor
  · rintro ⟨c, ⟨h8, hb⟩, rfl⟩
    exact ⟨c, h8, hb, rfl⟩
  · rintro ⟨c, h8, hb, rfl⟩
    exact ⟨c, ⟨h8, hb⟩, rfl⟩

/-- Sprite pixel `(r, c)` lies on `(ox + c, oy + r)`, and only set bits are pixels (R127). -/
theorem mem_spritePixels (ox oy : Nat) (rows : List Byte) (p : Nat × Nat) :
    p ∈ spritePixels ox oy rows ↔
      ∃ r c, ∃ h : r < rows.length, c < 8 ∧ rows[r].getLsbD (7 - c) = true ∧ p = (ox + c, oy + r) := by
  induction rows generalizing oy with
  | nil => simp [spritePixels]
  | cons row rows ih =>
    rw [spritePixels, List.mem_append, mem_rowPixels, ih]
    constructor
    · rintro (⟨c, h8, hb, rfl⟩ | ⟨r, c, hr, h8, hb, rfl⟩)
      · exact ⟨0, c, by simp, h8, by simpa using hb, rfl⟩
      · exact ⟨r + 1, c, by simpa using hr, h8, by simpa using hb, by simp; omega⟩
    · rintro ⟨r, c, hr, h8, hb, rfl⟩
      cases r with
      | zero => exact .inl ⟨c, h8, by simpa using hb, rfl⟩
      | succ r => exact .inr ⟨r, c, by simpa using hr, h8, by simpa using hb, by simp; omega⟩

theorem rowPixels_nodup (ox cy : Nat) (row : Byte) : (rowPixels ox cy row).Nodup := by
  unfold rowPixels
  refine List.Nodup.map (fun a b h => ?_) (List.nodup_range.filter _)
  simpa using h

/-- Distinct set bits of a sprite are distinct pixels (R126). -/
theorem spritePixels_nodup (ox oy : Nat) (rows : List Byte) : (spritePixels ox oy rows).Nodup := by
  induction rows generalizing oy with
  | nil => exact List.nodup_nil
  | cons row rows ih =>
    refine List.nodup_append.mpr ⟨rowPixels_nodup ox oy row, ih (oy + 1), fun a ha b hb e => ?_⟩
    obtain ⟨c, -, -, rfl⟩ := (mem_rowPixels _ _ _ _).mp ha
    obtain ⟨r, c', -, -, -, rfl⟩ := (mem_spritePixels _ _ _ _).mp hb
    simp at e
    omega

/-- Every pixel of an `n`-row sprite lies within 8 columns and `n` rows of its origin. -/
theorem spritePixels_near {ox oy : Nat} {rows : List Byte} {p : Nat × Nat} (h : p ∈ spritePixels ox oy rows) :
    ox ≤ p.1 ∧ p.1 < ox + 8 ∧ oy ≤ p.2 ∧ p.2 < oy + rows.length := by
  obtain ⟨r, c, hr, h8, -, rfl⟩ := (mem_spritePixels _ _ _ _).mp h
  simp
  omega

/-! ### The cells a sprite falls on -/

theorem cellIndex_lt {p : Nat × Nat} (h : onGrid p = true) : cellIndex p.1 p.2 < 2048 := by
  simp only [onGrid, decide_eq_true_eq, dispWidth, dispHeight] at h
  simp only [cellIndex, dispWidth]
  omega

theorem cellIndex_inj {a b c d : Nat} (ha : a < dispWidth) (hc : c < dispWidth) (h : cellIndex a b = cellIndex c d) :
    a = c ∧ b = d := by
  unfold cellIndex at h
  simp only [dispWidth] at *
  omega

theorem map_cellIndex_nodup {ps : List (Nat × Nat)} (hn : ps.Nodup) (hg : ∀ p ∈ ps, onGrid p = true) :
    (ps.map fun p => cellIndex p.1 p.2).Nodup := by
  refine List.Nodup.map_on (fun p hp q hq e => ?_) hn
  have h1 := hg p hp
  have h2 := hg q hq
  simp only [onGrid, decide_eq_true_eq] at h1 h2
  exact Prod.ext (cellIndex_inj h1.1 h2.1 e).1 (cellIndex_inj h1.1 h2.1 e).2

/-- Under every setting of `DRAW_EDGE` a sprite of at most 15 rows falls on distinct cells of the display (R128). -/
theorem edgeCells_sprite {edge : DrawEdge} {ox oy : Nat} {rows : List Byte} {ks : List Nat} (hrows : rows.length ≤ 15)
    (h : edgeCells edge (spritePixels ox oy rows) = some ks) : ks.Nodup ∧ ∀ k ∈ ks, k < 2048 := by
  cases edge with
  | fault =>
    simp only [edgeCells] at h
    split at h
    · next hall =>
      cases h
      have hg := List.all_eq_true.mp hall
      refine ⟨map_cellIndex_nodup (spritePixels_nodup _ _ _) hg, fun k hk => ?_⟩
      obtain ⟨p, hp, rfl⟩ := List.mem_map.mp hk
      exact cellIndex_lt (hg p hp)
    · cases h
  | clip =>
    simp only [edgeCells, Option.some.injEq] at h
    subst h
    refine ⟨map_cellIndex_nodup ((spritePixels_nodup _ _ _).filter _) fun p hp => (List.mem_filter.mp hp).2,
      fun k hk => ?_⟩
    obtain ⟨p, hp, rfl⟩ := List.mem_map.mp hk
    exact cellIndex_lt (List.mem_filter.mp hp).2
  | wrap =>
    simp only [edgeCells, Option.some.injEq] at h
    subst h
    constructor
    · refine List.Nodup.map_on (fun p hp q hq e => ?_) (spritePixels_nodup _ _ _)
      have hp := spritePixels_near hp
      have hq := spritePixels_near hq
      have := cellIndex_inj (Nat.mod_lt _ (by decide)) (Nat.mod_lt _ (by decide)) e
      simp only [dispWidth, dispHeight] at this
      exact Prod.ext (by omega) (by omega)
    · intro k hk
      obtain ⟨p, -, rfl⟩ := List.mem_map.mp hk
      have h1 := Nat.mod_lt p.1 (show 0 < dispWidth by decide)
      have h2 := Nat.mod_lt p.2 (show 0 < dispHeight by decide)
      simp only [cellIndex, dispWidth, dispHeight] at *
      omega

end Sys2Proof.Machine
end

