-- ==== Sys2Proof/Laws/Memory.lean ====
section
/-! SUPPORT. Memory: a read after a write, a write leaves every other address alone, and every memory operation keeps the
canonical form. -/

namespace Sys2Proof.Machine

/-! ### Listed bytes -/

theorem Memory.lookup_insert (m : Memory) (a b : Nat) (v : Byte) :
    (Memory.insert m a v).lookup b = if b = a then some v else m.lookup b := by
  induction m with
  | nil => simp [Memory.insert, Memory.lookup]
  | cons c m ih =>
    obtain ⟨k, w⟩ := c
    simp only [Memory.insert]
    split
    · simp [Memory.lookup]
    · split
      · subst_vars
        by_cases h : b = k <;> simp [Memory.lookup, h]
      · by_cases h : b = k
        · have : b ≠ a := by omega
          simp [Memory.lookup, h]
          omega
        · simp [Memory.lookup, h, ih]

theorem Memory.lookup_erase (m : Memory) (a b : Nat) :
    (Memory.erase m a).lookup b = if b = a then none else m.lookup b := by
  unfold Memory.erase
  induction m with
  | nil => simp [Memory.lookup]
  | cons c m ih =>
    obtain ⟨k, w⟩ := c
    by_cases hk : k = a
    · subst hk
      by_cases hb : b = k <;> simp_all [Memory.lookup]
    · by_cases hb : b = k
      · subst hb
        simp [Memory.lookup, hk]
      · simp [Memory.lookup, hk, hb, ih]

/-- A byte reads as what was last written there, and every other address reads as before (R50). -/
theorem Memory.read_write (font : Vector Byte 80) (m : Memory) (a b : Nat) (v : Byte) :
    (Memory.write font m a v).read font b = if b = a then v else m.read font b := by
  unfold Memory.write Memory.read
  split
  · rw [Memory.lookup_erase]
    split <;> simp_all
  · rw [Memory.lookup_insert]
    split <;> simp_all

/-! ### The canonical form -/

theorem Memory.mem_insert {m : Memory} {a : Nat} {v : Byte} {c : Host.Cell} (h : c ∈ Memory.insert m a v) :
    c = (a, v) ∨ c ∈ m := by
  induction m with
  | nil => simpa [Memory.insert] using h
  | cons d m ih =>
    obtain ⟨k, w⟩ := d
    simp only [Memory.insert] at h
    split at h
    · simpa using h
    · split at h
      · rcases List.mem_cons.mp h with h | h <;> simp [h]
      · rcases List.mem_cons.mp h with h | h
        · simp [h]
        · rcases ih h with h | h <;> simp [h]

theorem Memory.insert_rising {m : Memory} (a : Nat) (v : Byte) (h : m.Pairwise fun c d => c.1 < d.1) :
    (Memory.insert m a v).Pairwise fun c d => c.1 < d.1 := by
  induction m with
  | nil => simp [Memory.insert]
  | cons c m ih =>
    obtain ⟨k, w⟩ := c
    rw [List.pairwise_cons] at h
    simp only [Memory.insert]
    split
    · next hak =>
      refine List.pairwise_cons.mpr ⟨fun d hd => ?_, List.pairwise_cons.mpr h⟩
      rcases List.mem_cons.mp hd with rfl | hd
      · exact hak
      · exact lt_trans hak (h.1 d hd)
    · split
      · next hak =>
        subst hak
        exact List.pairwise_cons.mpr ⟨fun d hd => h.1 d hd, h.2⟩
      · refine List.pairwise_cons.mpr ⟨fun d hd => ?_, ih h.2⟩
        rcases Memory.mem_insert hd with rfl | hd
        · show k < a
          omega
        · exact h.1 d hd

/-- A write to an address that exists keeps the canonical form. -/
theorem Memory.wf_write {font : Vector Byte 80} {m : Memory} {a : Nat} (v : Byte) (ha : a < memSize) (h : m.wf font) :
    (Memory.write font m a v).wf font := by
  unfold Memory.write
  split
  · exact ⟨h.1.filter _, fun c hc => h.2 c (List.mem_filter.mp hc).1⟩
  · next hv =>
    refine ⟨Memory.insert_rising a v h.1, fun c hc => ?_⟩
    rcases Memory.mem_insert hc with rfl | hc
    · exact ⟨ha, hv⟩
    · exact h.2 c hc

/-! ### Through the state -/

theorem State.byteAt_putByte (s : State) (a b : Nat) (v : Byte) :
    (s.putByte a v).byteAt b = if b = a then v else s.byteAt b := by
  simp only [State.byteAt, State.putByte, Memory.read_write]

theorem State.wf_putByte {s : State} {a : Nat} (v : Byte) (ha : a < memSize) (h : s.mem.wf s.cfg.font) :
    (s.putByte a v).mem.wf s.cfg.font := Memory.wf_write v ha h

/-- Storing bytes leaves every address outside them alone. -/
theorem State.byteAt_putBytes_outside (s : State) (a b : Nat) (bs : List Byte) (h : b < a ∨ a + bs.length ≤ b) :
    (s.putBytes a bs).byteAt b = s.byteAt b := by
  induction bs generalizing s a with
  | nil => rfl
  | cons v bs ih =>
    simp only [List.length_cons] at h
    rw [State.putBytes, ih (s.putByte a v) (a + 1) (by omega), State.byteAt_putByte, if_neg (by omega)]

/-- Bytes stored from `a` up are read back, the `k`-th at `a + k`. -/
theorem State.byteAt_putBytes_inside (s : State) (a k : Nat) (bs : List Byte) (h : k < bs.length) :
    (s.putBytes a bs).byteAt (a + k) = bs[k] := by
  induction bs generalizing s a k with
  | nil => simp at h
  | cons v bs ih =>
    cases k with
    | zero =>
      rw [State.putBytes, State.byteAt_putBytes_outside _ _ _ _ (by omega), State.byteAt_putByte]
      simp
    | succ k =>
      have := ih (s.putByte a v) (a + 1) k (by simpa using h)
      rw [State.putBytes, show a + (k + 1) = a + 1 + k by omega, this]
      simp

/-- Storing bytes changes memory only. -/
theorem State.putBytes_eq (s : State) (a : Nat) (bs : List Byte) :
    s.putBytes a bs = { s with mem := (s.putBytes a bs).mem } := by
  induction bs generalizing s a with
  | nil => rfl
  | cons b bs ih => exact (ih (s.putByte a b) (a + 1)).trans rfl

theorem State.wf_putBytes {s : State} {a : Nat} (bs : List Byte) (ha : a + bs.length ≤ memSize)
    (h : s.mem.wf s.cfg.font) : (s.putBytes a bs).mem.wf s.cfg.font := by
  induction bs generalizing s a with
  | nil => exact h
  | cons v bs ih =>
    simp only [List.length_cons] at ha
    exact ih (s := s.putByte a v) (by omega) (State.wf_putByte v (by omega) h)

@[simp] theorem State.bytesFrom_length (s : State) (a n : Nat) : (s.bytesFrom a n).length = n := by
  simp [State.bytesFrom]

theorem State.bytesFrom_getElem (s : State) (a n k : Nat) (h : k < (s.bytesFrom a n).length) :
    (s.bytesFrom a n)[k] = s.byteAt (a + k) := by
  simp [State.bytesFrom]

/-! ### Reset memory -/

theorem State.resetWith_wf (cfg : Config) : (State.resetWith cfg).mem.wf cfg.font := by
  simp [State.resetWith, Memory.wf]

/-- Right after reset an address reads as the reset contents (R29). -/
theorem State.byteAt_resetWith (cfg : Config) (a : Nat) :
    (State.resetWith cfg).byteAt a = Memory.unlisted cfg.font a := rfl

end Sys2Proof.Machine
end

