-- ==== Sys2Proof/Laws/Draw.lean ====
section
/-! SUPPORT. The sprite of a state: which places its set bits fall on, which cells a draw touches, and when it faults, in
the words of the claims (`spriteLands`). -/

namespace Sys2Proof.Machine

open Sys2Proof.Safety

/-- The set pixels of a sprite are the places the rules say its set bits fall on (R127). -/
theorem mem_spriteOf (s : State) (x y : RegNo) (n : BitVec 4) (p : Nat × Nat) :
    p ∈ s.spriteOf x y n ↔ spriteLands false s x y n p.1 p.2 := by
  unfold State.spriteOf spriteLands
  rw [mem_spritePixels]
  constructor
  · rintro ⟨r, c, hr, h8, hb, rfl⟩
    rw [State.bytesFrom_getElem] at hb
    exact ⟨r, c, by simpa using hr, h8, hb, by simp⟩
  · rintro ⟨r, c, hr, h8, hb, h⟩
    refine ⟨r, c, by simpa using hr, h8, ?_, ?_⟩
    · rw [State.bytesFrom_getElem]; exact hb
    · simp at h; exact Prod.ext h.1.symm h.2.symm

/-- With `wrap` both coordinates are reduced to the grid (R128). -/
theorem spriteLands_wrapped (s : State) (x y : RegNo) (n : BitVec 4) (cx cy : Nat) :
    spriteLands true s x y n cx cy ↔ ∃ p ∈ s.spriteOf x y n, p.1 % 64 = cx ∧ p.2 % 32 = cy := by
  constructor
  · rintro ⟨r, c, hr, h8, hb, h⟩
    exact ⟨((s.reg x).toNat + c, (s.reg y).toNat + r), (mem_spriteOf ..).mpr ⟨r, c, hr, h8, hb, by simp⟩, h⟩
  · rintro ⟨p, hp, h⟩
    obtain ⟨r, c, hr, h8, hb, h'⟩ := (mem_spriteOf ..).mp hp
    simp only [Bool.false_eq_true, if_false] at h'
    exact ⟨r, c, hr, h8, hb, by simpa [h'] using h⟩

/-- The cells a completed draw touches (R126, R128). -/
theorem mem_edgeCells {s : State} {x y : RegNo} {n : BitVec 4} {ks : List Nat}
    (h : edgeCells s.cfg.drawEdge (s.spriteOf x y n) = some ks) (k : Nat) :
    k ∈ ks ↔ ∃ cx cy, cx ≤ 63 ∧ cy ≤ 31 ∧ k = 64 * cy + cx ∧
      spriteLands (decide (s.cfg.drawEdge = .wrap)) s x y n cx cy := by
  cases he : s.cfg.drawEdge with
  | fault =>
    simp only [he, edgeCells] at h
    split at h
    · next hall =>
      cases h
      have hg := List.all_eq_true.mp hall
      simp only [List.mem_map, cellIndex, dispWidth]
      constructor
      · rintro ⟨p, hp, rfl⟩
        have := hg p hp
        simp [onGrid, dispWidth, dispHeight] at this
        exact ⟨p.1, p.2, by omega, by omega, rfl, (mem_spriteOf ..).mp hp⟩
      · rintro ⟨cx, cy, _, _, rfl, hl⟩
        exact ⟨(cx, cy), (mem_spriteOf ..).mpr hl, rfl⟩
    · cases h
  | clip =>
    simp only [he, edgeCells, Option.some.injEq] at h
    subst h
    simp only [List.mem_map, List.mem_filter, cellIndex, dispWidth]
    constructor
    · rintro ⟨p, ⟨hp, hg⟩, rfl⟩
      simp [onGrid, dispWidth, dispHeight] at hg
      exact ⟨p.1, p.2, by omega, by omega, rfl, (mem_spriteOf ..).mp hp⟩
    · rintro ⟨cx, cy, _, _, rfl, hl⟩
      exact ⟨(cx, cy), ⟨(mem_spriteOf ..).mpr hl, by simp [onGrid, dispWidth, dispHeight]; omega⟩, rfl⟩
  | wrap =>
    simp only [he, edgeCells, Option.some.injEq] at h
    subst h
    simp only [List.mem_map, cellIndex, dispWidth, dispHeight, decide_true, spriteLands_wrapped]
    constructor
    · rintro ⟨p, hp, rfl⟩
      exact ⟨_, _, by omega, by omega, rfl, p, hp, rfl, rfl⟩
    · rintro ⟨cx, cy, _, _, rfl, p, hp, rfl, rfl⟩
      exact ⟨p, hp, rfl⟩

/-- When a draw raises `DisplayOutOfRange` (R128). -/
theorem edgeCells_eq_none {s : State} {x y : RegNo} {n : BitVec 4} :
    edgeCells s.cfg.drawEdge (s.spriteOf x y n) = none ↔
      s.cfg.drawEdge = .fault ∧ ∃ cx cy, spriteLands false s x y n cx cy ∧ (63 < cx ∨ 31 < cy) := by
  cases he : s.cfg.drawEdge <;> simp only [edgeCells, reduceCtorEq, false_and, true_and]
  split
  · next hall =>
    have hg := List.all_eq_true.mp hall
    simp only [reduceCtorEq, false_iff]
    rintro ⟨cx, cy, hl, ho⟩
    have := hg (cx, cy) ((mem_spriteOf ..).mpr hl)
    simp [onGrid, dispWidth, dispHeight] at this
    omega
  · next hall =>
    simp only [true_iff]
    by_contra hn
    refine hall (List.all_eq_true.mpr fun p hp => ?_)
    simp only [onGrid, decide_eq_true_eq, dispWidth, dispHeight]
    by_contra hc
    exact hn ⟨p.1, p.2, (mem_spriteOf ..).mp hp, by simp at hc; omega⟩

end Sys2Proof.Machine
end

