-- ==== Sys2Proof/Laws/Registers.lean ====
section
/-! SUPPORT. General registers: a read after a write, and what the list operations over registers do. -/

namespace Sys2Proof.Machine

theorem State.reg_setReg (s : State) (x r : RegNo) (b : Byte) :
    (s.setReg x b).reg r = if r = x then b else s.reg r := by
  have h : x.toNat = r.toNat ↔ r = x := by rw [BitVec.toNat_inj, eq_comm]
  simp only [State.reg, State.setReg, Vector.getElem_set, h]

@[simp] theorem State.reg_setReg_same (s : State) (x : RegNo) (b : Byte) : (s.setReg x b).reg x = b := by
  simp [State.reg_setReg]

theorem State.reg_setReg_other (s : State) {x r : RegNo} (b : Byte) (h : r ≠ x) : (s.setReg x b).reg r = s.reg r := by
  simp [State.reg_setReg, h]

@[simp] theorem State.reg_advance (s : State) (r : RegNo) : s.advance.reg r = s.reg r := rfl

@[simp] theorem State.reg_skipIf (s : State) (c : Bool) (r : RegNo) : (s.skipIf c).reg r = s.reg r := rfl

@[simp] theorem State.reg_begun (s : State) (r : RegNo) : s.begun.reg r = s.reg r := rfl

@[simp] theorem State.reg_scheduled (s : State) (r : RegNo) : s.scheduled.reg r = s.reg r := rfl

@[simp] theorem State.reg_putBytes (s : State) (a : Nat) (bs : List Byte) (r : RegNo) :
    (s.putBytes a bs).reg r = s.reg r := by simp [State.reg]

@[simp] theorem State.reg_afterDraw (s : State) (r : RegNo) : s.afterDraw.reg r = s.reg r := by simp [State.reg]

theorem State.reg_aluPlain (s : State) (x r : RegNo) (b : Byte) :
    (s.aluPlain x b).reg r = if r = x then b else s.reg r := State.reg_setReg s x r b

/-- The flag is written last, so `VF` always ends holding it (R119). -/
theorem State.reg_aluFlag (s : State) (x r : RegNo) (b g : Byte) :
    (s.aluFlag x b g).reg r = if r = vf then g else if r = x then b else s.reg r := by
  show ((s.setReg x b).setReg vf g).reg r = _
  rw [State.reg_setReg, State.reg_setReg]

@[simp] theorem State.regsBelow_length (s : State) (n : Nat) : (s.regsBelow n).length = n := by simp [State.regsBelow]

theorem State.regsBelow_getElem (s : State) (n k : Nat) (h : k < (s.regsBelow n).length) :
    (s.regsBelow n)[k] = s.reg (BitVec.ofNat 4 k) := by simp [State.regsBelow]

/-- Loading bytes from register `k` up changes only the registers they go to. -/
theorem State.reg_setRegs_outside (s : State) (k : Nat) (bs : List Byte) (r : RegNo) (hk : k + bs.length ≤ 16)
    (h : r.toNat < k ∨ k + bs.length ≤ r.toNat) : (s.setRegs k bs).reg r = s.reg r := by
  induction bs generalizing s k with
  | nil => rfl
  | cons b bs ih =>
    simp only [List.length_cons] at h hk
    rw [State.setRegs, ih _ _ (by omega) (by omega), State.reg_setReg_other]
    intro e
    have : r.toNat = k % 16 := by rw [e]; simp
    omega

/-- The `j`-th byte loaded from register `k` up lands in register `k + j`. -/
theorem State.reg_setRegs_inside (s : State) (k j : Nat) (bs : List Byte) (hj : j < bs.length)
    (hk : k + bs.length ≤ 16) : (s.setRegs k bs).reg (BitVec.ofNat 4 (k + j)) = bs[j] := by
  induction bs generalizing s k j with
  | nil => simp at hj
  | cons b bs ih =>
    simp only [List.length_cons] at hk hj
    cases j with
    | zero =>
      have e : (BitVec.ofNat 4 (k + 0)).toNat = k := by simp; omega
      rw [State.setRegs, State.reg_setRegs_outside _ _ _ _ (by omega) (by omega)]
      simp
    | succ j =>
      have := ih (s.setReg (BitVec.ofNat 4 k) b) (k + 1) j (by omega) (by omega)
      rw [State.setRegs, show k + (j + 1) = k + 1 + j by omega, this]
      simp

end Sys2Proof.Machine
end

