-- ==== Sys2Proof/Laws/Ops.lean ====
section
/-! SUPPORT. One lemma for each shared operation that says everything it can do: range checks, the stack, the key index,
the data check, skips, flags, fetch, and the agenda. -/

namespace Sys2Proof.Machine

open Sys2Proof.Safety

/-! ### Range checks (R44, R164) -/

theorem outOfRange_eq_false {a n : Nat} : outOfRange a n = false ↔ n = 0 ∨ a + n - 1 ≤ 0xFFF := by
  simp only [outOfRange, decide_eq_false_iff_not]
  omega

theorem outOfRange_eq_true {a n : Nat} : outOfRange a n = true ↔ 0 < n ∧ 0xFFF < a + n - 1 := by
  simp only [outOfRange, decide_eq_true_eq]

theorem dataFits_iff (s : State) (n : Nat) : dataFits s n ↔ outOfRange s.i.toNat n = false := outOfRange_eq_false.symm

theorem lowestBeyond_toNat (i : Word) : (lowestBeyond i).toNat = max i.toNat 0x1000 := by
  unfold lowestBeyond
  have h : (0x1000 : Word).toNat = 0x1000 := rfl
  split
  · next hlt =>
    have := BitVec.lt_def.mp hlt
    omega
  · next hge =>
    have := BitVec.le_def.mp (BitVec.not_lt.mp hge)
    omega

theorem lowestBeyond_eq (i : Word) : lowestBeyond i = BitVec.ofNat 16 (max i.toNat 0x1000) := by
  rw [← lowestBeyond_toNat, BitVec.ofNat_toNat, BitVec.setWidth_eq]

/-- An access either fits and the instruction goes on, or it faults at `max(I, 0x1000)` with nothing else changed. -/
theorem State.withData_spec (s : State) (n : Nat) (go : Result) :
    (dataFits s n ∧ s.withData n go = go) ∨
    (¬dataFits s n ∧ s.withData n go =
      .next { s with faultCause := 2, faultInfo := BitVec.ofNat 16 (max s.i.toNat 0x1000) }) := by
  rw [dataFits_iff]
  unfold State.withData State.dataTrap
  cases h : outOfRange s.i.toNat n
  · exact .inl ⟨rfl, rfl⟩
  · exact .inr ⟨by decide, by simp [raise, trapCode, trapInfo, lowestBeyond_eq]⟩

theorem State.withData_fits {s : State} {n : Nat} (go : Result) (h : dataFits s n) : s.withData n go = go := by
  rcases s.withData_spec n go with ⟨-, e⟩ | ⟨h', -⟩
  · exact e
  · exact absurd h h'

theorem State.withData_beyond {s : State} {n : Nat} (go : Result) (h : ¬dataFits s n) :
    s.withData n go = .next { s with faultCause := 2, faultInfo := BitVec.ofNat 16 (max s.i.toNat 0x1000) } := by
  rcases s.withData_spec n go with ⟨h', -⟩ | ⟨-, e⟩
  · exact absurd h' h
  · exact e

/-! ### The stack (R16) -/

theorem State.push_room {s : State} (a : Word) (h : s.sp.val < 16) :
    s.push a = .ok { s with stack := s.stack.set s.sp.val a h, sp := ⟨s.sp.val + 1, by omega⟩ } := by
  simp [State.push, h]

theorem State.push_full {s : State} (a : Word) (h : s.sp.val = 16) : s.push a = .error .stackOverflow := by
  simp [State.push, h]

theorem State.pop_entry {s : State} (h : 0 < s.sp.val) :
    s.pop = .ok (s.stack[s.sp.val - 1]'(by omega), { s with sp := ⟨s.sp.val - 1, by omega⟩ }) := by
  simp [State.pop, h]

theorem State.pop_empty {s : State} (h : s.sp.val = 0) : s.pop = .error .stackUnderflow := by
  simp [State.pop, h]

/-! ### The key index and the key wait (R94, R138) -/

theorem State.keyIndex_ok {s : State} {x : RegNo} (h : (s.reg x).toNat ≤ 15) : s.keyIndex x = .ok (s.reg x).toNat := by
  simp [State.keyIndex, Nat.not_lt.mpr h]

theorem State.keyIndex_bad {s : State} {x : RegNo} (h : 15 < (s.reg x).toNat) :
    s.keyIndex x = .error (.keyIndexOutOfRange (s.reg x)) := by
  simp [State.keyIndex, h]

theorem State.lowestKey_none {s : State} : s.lowestKey = none ↔ ∀ k, k < 16 → s.keys.getLsbD k = false := by
  simp [State.lowestKey, List.find?_eq_none, State.keyDown]

theorem State.lowestKey_some {s : State} {k : Nat} :
    s.lowestKey = some k ↔ k < 16 ∧ s.keys.getLsbD k = true ∧ ∀ j, j < k → s.keys.getLsbD j = false := by
  rw [State.lowestKey, List.find?_range_eq_some]
  simp only [State.keyDown, List.mem_range, Bool.not_eq_true']
  tauto

/-! ### Flags (R18) -/

theorem flagOf_zero_or_one (c : Bool) : flagOf c = 0 ∨ flagOf c = 1 := by cases c <;> simp [flagOf]

@[simp] theorem flagOf_eq_one {c : Bool} : flagOf c = 1 ↔ c = true := by cases c <;> simp [flagOf]

@[simp] theorem flagOf_eq_zero {c : Bool} : flagOf c = 0 ↔ c = false := by cases c <;> simp [flagOf]

/-! ### Program counter -/

theorem State.advance_toNat (s : State) : s.advance.pc.toNat = (s.pc.toNat + 2) % 65536 := by
  simp [BitVec.toNat_add]

theorem State.skipIf_spec (s : State) (c : Bool) : skipPc s (c = true) (s.skipIf c).pc.toNat := by
  cases c <;> simp [skipPc, BitVec.toNat_add]

/-! ### Fetch and the agenda (R45, R24) -/

theorem State.fetch_some {s : State} (h : s.pc.toNat ≤ 0xFFE) :
    s.fetch = some (s.byteAt s.pc.toNat ++ s.byteAt (s.pc.toNat + 1)) := by
  have : outOfRange s.pc.toNat 2 = false := outOfRange_eq_false.mpr (by omega)
  simp [State.fetch, this]

theorem State.fetch_none {s : State} (h : 0xFFF ≤ s.pc.toNat) : s.fetch = none := by
  have : outOfRange s.pc.toNat 2 = true := outOfRange_eq_true.mpr (by omega)
  simp [State.fetch, this]

theorem State.fetch_eq_some {s : State} {w : Word} (h : s.fetch = some w) :
    s.pc.toNat ≤ 0xFFE ∧ w = s.byteAt s.pc.toNat ++ s.byteAt (s.pc.toNat + 1) := by
  by_cases hp : s.pc.toNat ≤ 0xFFE
  · rw [State.fetch_some hp] at h
    exact ⟨hp, (Option.some.inj h).symm⟩
  · rw [State.fetch_none (by omega)] at h
    cases h

theorem State.fetch_eq_none {s : State} (h : s.fetch = none) : 0xFFF ≤ s.pc.toNat := by
  by_contra hp
  rw [State.fetch_some (by omega)] at h
  cases h

@[simp] theorem State.fetch_begun (s : State) : s.begun.fetch = s.fetch := rfl

@[simp] theorem State.fetch_scheduled (s : State) : s.scheduled.fetch = s.fetch := rfl

theorem nextAction_of_cycleDue {s : State} (h : cycleDue s) : s.nextAction = .cycle := by
  rcases h with h | ⟨rest, h⟩ <;> simp [State.nextAction, h]

theorem cycleDue_iff (s : State) : cycleDue s ↔ s.nextAction = .cycle := by
  refine ⟨nextAction_of_cycleDue, fun h => ?_⟩
  unfold State.nextAction at h
  cases ha : s.agenda with
  | nil => exact .inl ha
  | cons a rest =>
    rw [ha] at h
    exact .inr ⟨rest, by rw [ha, show a = .cycle from h]⟩

theorem step_of_cons {s : State} {a : Action} {rest : List Action} (h : s.agenda = a :: rest) :
    step s = act a { s with agenda := rest } := by
  simp [step, State.nextAction, State.scheduled, h]

/-- A step with a `Cycle` due: a halted engine stops, a fetch from beyond memory faults, else one instruction runs. -/
theorem step_cycle {s : State} (h : cycleDue s) :
    (¬running s ∧ step s = .fault (.halted s.faultCause s.faultInfo)) ∨
    (running s ∧ s.fetch = none ∧ step s =
      .next { s with agenda := s.agenda.tail, fresh := false, faultCause := 1, faultInfo := s.pc }) ∨
    (running s ∧ ∃ w, s.fetch = some w ∧ step s = exec (decodeWord w) s.scheduled.begun) := by
  rw [step, nextAction_of_cycleDue h]
  show (_ ∧ cycle s.scheduled = _) ∨ (_ ∧ _ ∧ cycle s.scheduled = _) ∨ (_ ∧ ∃ w, _ ∧ cycle s.scheduled = _)
  unfold cycle State.halted running
  by_cases hc : s.faultCause = 0
  · simp only [State.scheduled_faultCause, hc, bne_self_eq_false, Bool.false_eq_true, if_false, State.fetch_scheduled,
      not_true_eq_false, false_and, false_or, true_and]
    cases hf : s.fetch with
    | none => exact .inl ⟨rfl, rfl⟩
    | some w => exact .inr ⟨w, rfl, rfl⟩
  · exact .inl ⟨hc, by rw [if_pos (by simpa using hc)]; rfl⟩

/-! ### Operands and recorded values (R63, R105, R162) -/

@[simp] theorem addrOperand_toNat (nnn : Addr) : (addrOperand nnn).toNat = nnn.toNat := by
  have := nnn.isLt
  simp [addrOperand]
  omega

@[simp] theorem byteOperand_toNat (b : Byte) : (byteOperand b).toNat = b.toNat := by
  have := b.isLt
  simp [byteOperand]
  omega

/-- Two bytes side by side, the first the high one. -/
theorem append_bytes_toNat (hi lo : Byte) : (hi ++ lo : Word).toNat = hi.toNat * 256 + lo.toNat := by
  show (hi ++ lo : BitVec (8 + 8)).toNat = _
  rw [BitVec.toNat_append, Nat.shiftLeft_eq, mul_comm, ← Nat.two_pow_add_eq_or_of_lt lo.isLt]

theorem State.shiftOperand_cases (s : State) (x y : RegNo) :
    (s.cfg.shiftSource = .x ∧ s.shiftOperand x y = s.reg x) ∨ (s.cfg.shiftSource = .y ∧ s.shiftOperand x y = s.reg y) := by
  unfold State.shiftOperand
  cases s.cfg.shiftSource <;> simp

/-! ### Ticks (R176) -/

theorem countDown_toNat (b : Byte) : (countDown b).toNat = b.toNat - 1 := by
  unfold countDown
  split
  · next h => simp [h]
  · next h =>
    have h0 : b.toNat ≠ 0 := fun e => h (BitVec.eq_of_toNat_eq (by simpa using e))
    have := b.isLt
    rw [BitVec.toNat_sub]
    simp
    omega

/-! ### Several steps -/

theorem core_run_succ (k : Nat) {s t : State} (h : step s = .next t) : core.run (k + 1) s = core.run k t :=
  have run_succ {M : Host.Core} {a b : M.State} (e : M.step a = .next b) : M.run (k + 1) a = M.run k b := by
    rw [Host.Core.run, e]
  run_succ (M := core) h

end Sys2Proof.Machine
end

