-- ==== Sys2Proof/Laws/Frame.lean ====
section
/-! SUPPORT. What each shared update leaves unchanged, as a footprint. -/

namespace Sys2Proof.Safety

open Sys2Proof.Machine

theorem keeps_refl (f : Footprint) (s : State) : f.keeps s s := by simp [Footprint.keeps]

theorem keeps_trans {f g h : Footprint} {s t u : State} (hst : f.keeps s t) (htu : g.keeps t u)
    (hr : ∀ r, r ∉ h.regs → r ∉ f.regs ∧ r ∉ g.regs) (hb : ∀ a, a ∉ h.bytes → a ∉ f.bytes ∧ a ∉ g.bytes)
    (he : ∀ k, k ∉ h.entries → k ∉ f.entries ∧ k ∉ g.entries)
    (hi : h.i = false → f.i = false ∧ g.i = false) (hsp : h.sp = false → f.sp = false ∧ g.sp = false)
    (hdt : h.dt = false → f.dt = false ∧ g.dt = false) (hst' : h.st = false → f.st = false ∧ g.st = false)
    (hd : h.disp = false → f.disp = false ∧ g.disp = false) (hw : h.draw = false → f.draw = false ∧ g.draw = false) :
    h.keeps s u := by
  obtain ⟨a1, a2, a3, a4, a5, a6, a7, a8, a9, a10, a11, a12, a13, a14, a15⟩ := hst
  obtain ⟨b1, b2, b3, b4, b5, b6, b7, b8, b9, b10, b11, b12, b13, b14, b15⟩ := htu
  refine ⟨fun r h => (b1 r (hr r h).2).trans (a1 r (hr r h).1), fun a h => (b2 a (hb a h).2).trans (a2 a (hb a h).1),
    fun k hk h => (b3 k hk (he k h).2).trans (a3 k hk (he k h).1), fun h => (b4 (hi h).2).trans (a4 (hi h).1),
    fun h => (b5 (hsp h).2).trans (a5 (hsp h).1), fun h => (b6 (hdt h).2).trans (a6 (hdt h).1),
    fun h => (b7 (hst' h).2).trans (a7 (hst' h).1), fun h => (b8 (hd h).2).trans (a8 (hd h).1),
    fun h => ⟨(b9 (hw h).2).1.trans (a9 (hw h).1).1, (b9 (hw h).2).2.trans (a9 (hw h).1).2⟩,
    b10.trans a10, b11.trans a11, b12.trans a12, b13.trans a13, b14.trans a14, b15.trans a15⟩

/-- An update of `pc` alone changes nothing a footprint speaks of. -/
theorem keeps_pc (f : Footprint) (s : State) (p : Word) : f.keeps s { s with pc := p } := by
  simp [Footprint.keeps, State.reg, State.byteAt]

theorem keeps_index (s : State) (a : Word) : ({ i := true } : Footprint).keeps s { s with i := a } := by
  simp [Footprint.keeps, State.reg, State.byteAt]

theorem keeps_display (s : State) (d : Display) : ({ disp := true } : Footprint).keeps s { s with disp := d } := by
  simp [Footprint.keeps, State.reg, State.byteAt]

theorem keeps_afterDraw (s : State) : ({ draw := true } : Footprint).keeps s s.afterDraw := by
  simp [Footprint.keeps, State.byteAt]

theorem keeps_advance {f : Footprint} {s t : State} (h : f.keeps s t) : f.keeps s t.advance := h

theorem keeps_skipIf (s : State) (c : Bool) : ({} : Footprint).keeps s (s.skipIf c) := keeps_pc _ s _

theorem keeps_setReg (s : State) (x : RegNo) (b : Byte) : ({ regs := [x] } : Footprint).keeps s (s.setReg x b) := by
  refine ⟨fun r hr => State.reg_setReg_other s b (by simpa using hr), ?_⟩
  simp [State.byteAt]

theorem keeps_aluPlain (s : State) (x : RegNo) (r : Byte) : ({ regs := [x] } : Footprint).keeps s (s.aluPlain x r) :=
  keeps_setReg s x r

theorem keeps_aluFlag (s : State) (x : RegNo) (r g : Byte) :
    ({ regs := [x, 15] } : Footprint).keeps s (s.aluFlag x r g) := by
  refine ⟨fun q hq => ?_, ?_⟩
  · simp only [List.mem_cons, List.not_mem_nil, or_false, not_or] at hq
    rw [State.reg_aluFlag, if_neg hq.2, if_neg hq.1]
  · simp [State.byteAt]

theorem mem_addrsFrom {a n b : Nat} : b ∈ addrsFrom a n ↔ a ≤ b ∧ b < a + n := by
  simp only [addrsFrom, List.mem_map, List.mem_range]
  constructor
  · rintro ⟨k, hk, rfl⟩
    omega
  · intro h
    exact ⟨b - a, by omega, by omega⟩

theorem keeps_putBytes (s : State) (a : Nat) (bs : List Byte) :
    ({ bytes := addrsFrom a bs.length } : Footprint).keeps s (s.putBytes a bs) := by
  refine ⟨fun r _ => State.reg_putBytes s a bs r, fun b hb => State.byteAt_putBytes_outside s a b bs ?_, ?_⟩
  · rw [mem_addrsFrom] at hb
    omega
  · simp

end Sys2Proof.Safety
end

