-- ==== Sys2Proof/Laws/PerInstr.lean ====
section
/-! SUPPORT. The family `EncodeMatchesRow`: the word of every well-formed instruction matches its own row of the opcode
map (R66), and the word of a `nop` matches none. -/

namespace Sys2Proof.Laws.EncodeMatchesRow

def Statement (i : Instr) : Prop :=
  i.wf = true →
    (∀ r ∈ opcodeRows, r.number = i.row → r.hits (encode i) = true) ∧ (i.row = 35 → unrecognised (encode i) = true)

/-- One row of the map has the instruction's number, and it is enough that this one matches. -/
theorem of_row {i : Instr} {r : OpcodeRow} (h : opcodeRows.filter (fun q => q.number == i.row) = [r])
    (hit : r.hits (encode i) = true) (hn : i.row ≠ 35) : Statement i := by
  refine fun _ => ⟨fun q hq e => ?_, fun e => absurd e hn⟩
  have hm : q ∈ opcodeRows.filter (fun q => q.number == i.row) := List.mem_filter.mpr ⟨hq, by simpa using e⟩
  rw [h, List.mem_singleton] at hm
  exact hm ▸ hit

theorem of_op {i : Instr} {k : Nat} {mn : String} {p : Word} (op : BitVec 4)
    (h : opcodeRows.filter (fun q => q.number == i.row) = [⟨k, mn, p, 0xF000⟩]) (hp : encodeA op 0 = p)
    (ho : fieldOp (encode i) = op) (hn : i.row ≠ 35) : Statement i :=
  of_row h (beq_iff_eq.mpr ((matches_op op hp).mpr ho)) hn

theorem of_op_m {i : Instr} {k : Nat} {mn : String} {p : Word} (op m : BitVec 4)
    (h : opcodeRows.filter (fun q => q.number == i.row) = [⟨k, mn, p, 0xF00F⟩]) (hp : encodeR op 0 0 m = p)
    (ho : fieldOp (encode i) = op) (hm : fieldN (encode i) = m) (hn : i.row ≠ 35) : Statement i :=
  of_row h (beq_iff_eq.mpr ((matches_op_m op m hp).mpr ⟨ho, hm⟩)) hn

theorem of_op_fn {i : Instr} {k : Nat} {mn : String} {p : Word} (op : BitVec 4) (fn : Byte)
    (h : opcodeRows.filter (fun q => q.number == i.row) = [⟨k, mn, p, 0xF0FF⟩]) (hp : encodeX op 0 fn = p)
    (ho : fieldOp (encode i) = op) (hf : fieldKK (encode i) = fn) (hn : i.row ≠ 35) : Statement i :=
  of_row h (beq_iff_eq.mpr ((matches_op_fn op fn hp).mpr ⟨ho, hf⟩)) hn

theorem cls : Statement .cls :=
  of_row rfl rfl (by simp [Instr.row])

theorem ret : Statement .ret :=
  of_row rfl rfl (by simp [Instr.row])

theorem jp (nnn : Addr) : Statement (.jp nnn) :=
  of_op 1 rfl rfl (fieldOp_encodeA _ _) (by simp [Instr.row])

theorem call (nnn : Addr) : Statement (.call nnn) :=
  of_op 2 rfl rfl (fieldOp_encodeA _ _) (by simp [Instr.row])

theorem seImm (x : RegNo) (kk : Byte) : Statement (.seImm x kk) :=
  of_op 3 rfl rfl (fieldOp_encodeI _ _ _) (by simp [Instr.row])

theorem sneImm (x : RegNo) (kk : Byte) : Statement (.sneImm x kk) :=
  of_op 4 rfl rfl (fieldOp_encodeI _ _ _) (by simp [Instr.row])

theorem seReg (x y : RegNo) : Statement (.seReg x y) :=
  of_op_m 5 0 rfl rfl (fieldOp_encodeR _ _ _ _) (fieldN_encodeR _ _ _ _) (by simp [Instr.row])

theorem ldImm (x : RegNo) (kk : Byte) : Statement (.ldImm x kk) :=
  of_op 6 rfl rfl (fieldOp_encodeI _ _ _) (by simp [Instr.row])

theorem addImm (x : RegNo) (kk : Byte) : Statement (.addImm x kk) :=
  of_op 7 rfl rfl (fieldOp_encodeI _ _ _) (by simp [Instr.row])

theorem ldReg (x y : RegNo) : Statement (.ldReg x y) :=
  of_op_m 8 0 rfl rfl (fieldOp_encodeR _ _ _ _) (fieldN_encodeR _ _ _ _) (by simp [Instr.row])

theorem orReg (x y : RegNo) : Statement (.orReg x y) :=
  of_op_m 8 1 rfl rfl (fieldOp_encodeR _ _ _ _) (fieldN_encodeR _ _ _ _) (by simp [Instr.row])

theorem andReg (x y : RegNo) : Statement (.andReg x y) :=
  of_op_m 8 2 rfl rfl (fieldOp_encodeR _ _ _ _) (fieldN_encodeR _ _ _ _) (by simp [Instr.row])

theorem xorReg (x y : RegNo) : Statement (.xorReg x y) :=
  of_op_m 8 3 rfl rfl (fieldOp_encodeR _ _ _ _) (fieldN_encodeR _ _ _ _) (by simp [Instr.row])

theorem addReg (x y : RegNo) : Statement (.addReg x y) :=
  of_op_m 8 4 rfl rfl (fieldOp_encodeR _ _ _ _) (fieldN_encodeR _ _ _ _) (by simp [Instr.row])

theorem subReg (x y : RegNo) : Statement (.subReg x y) :=
  of_op_m 8 5 rfl rfl (fieldOp_encodeR _ _ _ _) (fieldN_encodeR _ _ _ _) (by simp [Instr.row])

theorem shr (x y : RegNo) : Statement (.shr x y) :=
  of_op_m 8 6 rfl rfl (fieldOp_encodeR _ _ _ _) (fieldN_encodeR _ _ _ _) (by simp [Instr.row])

theorem subn (x y : RegNo) : Statement (.subn x y) :=
  of_op_m 8 7 rfl rfl (fieldOp_encodeR _ _ _ _) (fieldN_encodeR _ _ _ _) (by simp [Instr.row])

theorem shl (x y : RegNo) : Statement (.shl x y) :=
  of_op_m 8 14 rfl rfl (fieldOp_encodeR _ _ _ _) (fieldN_encodeR _ _ _ _) (by simp [Instr.row])

theorem sneReg (x y : RegNo) : Statement (.sneReg x y) :=
  of_op_m 9 0 rfl rfl (fieldOp_encodeR _ _ _ _) (fieldN_encodeR _ _ _ _) (by simp [Instr.row])

theorem ldI (nnn : Addr) : Statement (.ldI nnn) :=
  of_op 10 rfl rfl (fieldOp_encodeA _ _) (by simp [Instr.row])

theorem jpV0 (nnn : Addr) : Statement (.jpV0 nnn) :=
  of_op 11 rfl rfl (fieldOp_encodeA _ _) (by simp [Instr.row])

theorem rnd (x : RegNo) (kk : Byte) : Statement (.rnd x kk) :=
  of_op 12 rfl rfl (fieldOp_encodeI _ _ _) (by simp [Instr.row])

theorem drw (x y : RegNo) (n : BitVec 4) : Statement (.drw x y n) :=
  of_op 13 rfl rfl (fieldOp_encodeR _ _ _ _) (by simp [Instr.row])

theorem skp (x : RegNo) : Statement (.skp x) :=
  of_op_fn 14 0x9E rfl rfl (fieldOp_encodeX _ _ _) (fieldKK_encodeX _ _ _) (by simp [Instr.row])

theorem sknp (x : RegNo) : Statement (.sknp x) :=
  of_op_fn 14 0xA1 rfl rfl (fieldOp_encodeX _ _ _) (fieldKK_encodeX _ _ _) (by simp [Instr.row])

theorem ldVxDT (x : RegNo) : Statement (.ldVxDT x) :=
  of_op_fn 15 0x07 rfl rfl (fieldOp_encodeX _ _ _) (fieldKK_encodeX _ _ _) (by simp [Instr.row])

theorem ldVxK (x : RegNo) : Statement (.ldVxK x) :=
  of_op_fn 15 0x0A rfl rfl (fieldOp_encodeX _ _ _) (fieldKK_encodeX _ _ _) (by simp [Instr.row])

theorem ldDTVx (x : RegNo) : Statement (.ldDTVx x) :=
  of_op_fn 15 0x15 rfl rfl (fieldOp_encodeX _ _ _) (fieldKK_encodeX _ _ _) (by simp [Instr.row])

theorem ldSTVx (x : RegNo) : Statement (.ldSTVx x) :=
  of_op_fn 15 0x18 rfl rfl (fieldOp_encodeX _ _ _) (fieldKK_encodeX _ _ _) (by simp [Instr.row])

theorem addI (x : RegNo) : Statement (.addI x) :=
  of_op_fn 15 0x1E rfl rfl (fieldOp_encodeX _ _ _) (fieldKK_encodeX _ _ _) (by simp [Instr.row])

theorem ldF (x : RegNo) : Statement (.ldF x) :=
  of_op_fn 15 0x29 rfl rfl (fieldOp_encodeX _ _ _) (fieldKK_encodeX _ _ _) (by simp [Instr.row])

theorem ldB (x : RegNo) : Statement (.ldB x) :=
  of_op_fn 15 0x33 rfl rfl (fieldOp_encodeX _ _ _) (fieldKK_encodeX _ _ _) (by simp [Instr.row])

theorem ldMemVx (x : RegNo) : Statement (.ldMemVx x) :=
  of_op_fn 15 0x55 rfl rfl (fieldOp_encodeX _ _ _) (fieldKK_encodeX _ _ _) (by simp [Instr.row])

theorem ldVxMem (x : RegNo) : Statement (.ldVxMem x) :=
  of_op_fn 15 0x65 rfl rfl (fieldOp_encodeX _ _ _) (fieldKK_encodeX _ _ _) (by simp [Instr.row])

theorem nop (w : Word) : Statement (.nop w) := by
  refine fun h => ⟨fun r hr e => ?_, fun _ => h⟩
  have : ∀ q ∈ opcodeRows, q.number ≠ 35 := by decide
  exact absurd e (this r hr)

end Sys2Proof.Laws.EncodeMatchesRow
end

