-- ==== Sys2Proof/Tests/Slice0.lean ====
section
/-! SUPPORT. The model's own tests. Expected results come from spec/95_test_vectors.md (the row is named in each docstring)
or from the encodings of spec/30_encoding.md; the second half shows, for every obligation with hypotheses, a state that
meets them. -/

namespace Sys2Proof.Tests

open Sys2Proof.Machine Sys2Proof.Safety

/-! ### Helpers -/

/-- The reset state with some registers set. -/
def withRegs (rs : List (RegNo × Byte)) (s : State) : State := rs.foldl (fun t p => t.setReg p.1 p.2) s

/-- Run one instruction word at `pc`, and test the state after it. -/
def runs (w : Nat) (s : State) (p : State → Bool) : Bool :=
  match step (s.withFetchWord 16 w) with
  | .next t => p t
  | _ => false

/-- Take one action of the agenda, and test the state after it. -/
def takes (a : Action) (s : State) (p : State → Bool) : Bool :=
  match step { s with agenda := [a] } with
  | .next t => p t
  | _ => false

/-- How the next step stops, if it does. -/
def stops (s : State) : Option (Fault ⊕ Refusal) :=
  match step s with
  | .next _ => none
  | .fault e => some (.inl e)
  | .refused r => some (.inr r)

/-- `I = 0x300` with bytes from there up. -/
def atI (bs : List Byte) (s : State) : State := { s.putBytes 0x300 bs with i := 0x300 }

/-- The display with the cells of a list on. -/
def lit (ks : List Nat) (s : State) : State := { s with disp := ks.foldl Display.flip s.disp }

/-- Are exactly the cells of a list on? -/
def shows (t : State) (ks : List Nat) : Bool := t.disp == ks.foldl Display.flip Display.clear

/-- A fault latched, and `pc` left where the faulting instruction stands. -/
def halts (t : State) (cause : BitVec 3) (info pc : Word) : Bool :=
  t.faultCause == cause && t.faultInfo == info && t.pc == pc

/-! ### Well-formedness: a `nop` must not carry a recognised word (R155) -/

theorem test_wf_refuses_cls : Instr.wf (.nop 0x00E0) = false := by decide
theorem test_wf_refuses_every_family :
    ([0x00EE, 0x1000, 0x2FFF, 0x3000, 0x4000, 0x5AB0, 0x6000, 0x7000, 0x8AB7, 0x9AB0, 0xA000, 0xB000, 0xC000, 0xD000,
      0xE09E, 0xE0A1, 0xF007, 0xFF65] : List Word).all (fun w => !(Instr.nop w).wf) = true := by decide
theorem test_wf_accepts_unrecognised :
    ([0x0000, 0x00E1, 0x5AB1, 0x8AB8, 0x9ABF, 0xE19F, 0xF1FF] : List Word).all (fun w => (Instr.nop w).wf) = true := by
  decide

/-! ### Decoding, by words written out from the formats of R62 and the map R66 -/

theorem test_decode_control :
    [decodeWord 0b0000000011100000, decodeWord 0b0000000011101110, decodeWord 0b0001101010111100,
      decodeWord 0b0010001100000001, decodeWord 0b1011111111111110]
    = [.cls, .ret, .jp 0xABC, .call 0x301, .jpV0 0xFFE] := by decide
theorem test_decode_skips :
    [decodeWord 0b0011101000000101, decodeWord 0b0100101100000110, decodeWord 0b0101000100100000,
      decodeWord 0b1001001101000000, decodeWord 0b1110010110011110, decodeWord 0b1110011010100001]
    = [.seImm 10 5, .sneImm 11 6, .seReg 1 2, .sneReg 3 4, .skp 5, .sknp 6] := by decide
theorem test_decode_immediate :
    [decodeWord 0b0110101000000101, decodeWord 0b0111101100000011, decodeWord 0b1010001000010000,
      decodeWord 0b1100001100001111, decodeWord 0b1111000100011110, decodeWord 0b1111001000101001]
    = [.ldImm 10 5, .addImm 11 3, .ldI 0x210, .rnd 3 0x0F, .addI 1, .ldF 2] := by decide
theorem test_decode_alu :
    [decodeWord 0b1000000100100000, decodeWord 0b1000000100100001, decodeWord 0b1000000100100010,
      decodeWord 0b1000000100100011, decodeWord 0b1000101010110100, decodeWord 0b1000000100100101,
      decodeWord 0b1000000100100110, decodeWord 0b1000000100100111, decodeWord 0b1000000100101110]
    = [.ldReg 1 2, .orReg 1 2, .andReg 1 2, .xorReg 1 2, .addReg 10 11, .subReg 1 2, .shr 1 2, .subn 1 2, .shl 1 2] := by
  decide
theorem test_decode_display_timers_transfer :
    [decodeWord 0b1101000100101111, decodeWord 0b1111001100000111, decodeWord 0b1111001000001010,
      decodeWord 0b1111010000010101, decodeWord 0b1111010100011000, decodeWord 0b1111011000110011,
      decodeWord 0b1111011101010101, decodeWord 0b1111100001100101]
    = [.drw 1 2 15, .ldVxDT 3, .ldVxK 2, .ldDTVx 4, .ldSTVx 5, .ldB 6, .ldMemVx 7, .ldVxMem 8] := by decide
/-- T-NOP-1, 2, 4, 5, 6, 8, 10. -/
theorem test_decode_unrecognised :
    ([0x8128, 0x812F, 0x00E1, 0x0300, 0x5121, 0xE19F, 0xF075] : List Word).all (fun w => decodeWord w == .nop w) = true := by
  decide
theorem test_decode_table_word : decodeTableWord 16 0xD125 = some (.drw 1 2 5) := by decide
theorem test_decode_truncated : decode [0x6A] = .error (.truncated 1) := by decide
theorem test_encode : [encode (.drw 1 2 5), encode (.shl 3 4), encode (.ldMemVx 7), encode (.jp 0xABC)]
    = [0xD125, 0x834E, 0xF755, 0x1ABC] := by decide

/-! ### Control transfer -/

/-- T-JP-1. -/
theorem test_jp : runs 0x1ABC State.reset (fun t => t.pc == 0x0ABC) = true := by decide
/-- T-CALL-2: an odd `pc`, the third entry. -/
theorem test_call :
    runs 0x2ABD { State.reset with pc := 0x345, sp := 2 }
      (fun t => t.pc == 0xABD && t.sp == 3 && t.stack[2] == 0x345 && t.stack[3] == 0) = true := by decide
/-- T-CALL-3. -/
theorem test_call_full : runs 0x2300 { State.reset with sp := 16 } (fun t => halts t 3 0x10 0x200 && t.sp == 16) = true := by
  decide
/-- T-RET-3: the newest entry, 2 after the call. -/
theorem test_ret :
    runs 0x00EE { State.reset with pc := 0x400, sp := 2, stack := (State.reset.stack.set 0 0x200).set 1 0xFFE }
      (fun t => t.pc == 0x1000 && t.sp == 1 && t.stack[1] == 0xFFE && t.faultCause == 0) = true := by decide
/-- T-RET-2. -/
theorem test_ret_empty : runs 0x00EE State.reset (fun t => halts t 4 0 0x200) = true := by decide
/-- T-JPV0-2. -/
theorem test_jpV0 : runs 0xBFFF (withRegs [(0, 0xFF)] State.reset) (fun t => t.pc == 0x10FE) = true := by decide

/-! ### Skips -/

/-- T-SE-4: from an odd `pc`. -/
theorem test_seImm_skips :
    runs 0x3A05 (withRegs [(10, 5)] { State.reset with pc := 0x201 }) (fun t => t.pc == 0x205) = true := by decide
/-- T-SE-2. -/
theorem test_seImm_goes_on : runs 0x3A05 (withRegs [(10, 6)] State.reset) (fun t => t.pc == 0x202) = true := by decide
/-- T-SNE-1. -/
theorem test_sneImm_goes_on : runs 0x4A05 (withRegs [(10, 5)] State.reset) (fun t => t.pc == 0x202) = true := by decide
/-- T-SNE-2. -/
theorem test_sneImm_skips : runs 0x4A05 (withRegs [(10, 6)] State.reset) (fun t => t.pc == 0x204) = true := by decide
/-- T-SER-1. -/
theorem test_seReg_skips : runs 0x5120 (withRegs [(1, 7), (2, 7)] State.reset) (fun t => t.pc == 0x204) = true := by decide
/-- T-SER-2. -/
theorem test_seReg_goes_on : runs 0x5120 (withRegs [(1, 7), (2, 8)] State.reset) (fun t => t.pc == 0x202) = true := by
  decide
/-- T-SNER-1. -/
theorem test_sneReg_skips : runs 0x9120 (withRegs [(1, 7), (2, 8)] State.reset) (fun t => t.pc == 0x204) = true := by decide
/-- T-SNER-3: the same register never skips. -/
theorem test_sneReg_same : runs 0x9330 (withRegs [(3, 9)] State.reset) (fun t => t.pc == 0x202) = true := by decide
/-- T-SKP-1. -/
theorem test_skp : runs 0xE49E (withRegs [(4, 11)] { State.reset with keys := 0x0800 }) (fun t => t.pc == 0x204) = true := by
  decide
/-- T-SKP-3: the index is not masked. -/
theorem test_skp_beyond :
    runs 0xE49E (withRegs [(4, 0x10)] { State.reset with keys := 1 }) (fun t => halts t 6 0x10 0x200) = true := by decide
/-- T-SKNP-1. -/
theorem test_sknp_pressed :
    runs 0xE4A1 (withRegs [(4, 11)] { State.reset with keys := 0x0800 }) (fun t => t.pc == 0x202) = true := by decide
/-- T-SKNP-2. -/
theorem test_sknp_released : runs 0xE4A1 (withRegs [(4, 11)] State.reset) (fun t => t.pc == 0x204) = true := by decide

/-! ### Immediate, index and random -/

/-- T-LD-2. -/
theorem test_ldImm : runs 0x6FFF State.reset (fun t => t.reg 15 == 0xFF && t.pc == 0x202) = true := by decide
/-- T-ADDI-1: wraps, no carry flag. -/
theorem test_addImm : runs 0x7A01 (withRegs [(10, 0xFF)] State.reset) (fun t => t.reg 10 == 0 && t.reg 15 == 0) = true := by
  decide
/-- T-LDI-1. -/
theorem test_ldI : runs 0xAFFF State.reset (fun t => t.i == 0xFFF && t.pc == 0x202) = true := by decide
/-- T-RND-1. -/
theorem test_rnd : runs 0xC30F { State.reset with rndIn := [0xA7, 0x11] }
    (fun t => t.reg 3 == 0x07 && t.rndIn == [0x11] && t.pc == 0x202) = true := by decide
/-- T-ADDIX-2: modulo 65536, no flag. -/
theorem test_addI : runs 0xF11E (withRegs [(1, 2)] { State.reset with i := 0xFFFF })
    (fun t => t.i == 1 && t.reg 15 == 0) = true := by decide
/-- T-ADDIX-1: not masked to 12 bits. -/
theorem test_addI_unmasked :
    runs 0xF11E (withRegs [(1, 1)] { State.reset with i := 0xFFF }) (fun t => t.i == 0x1000) = true := by decide
/-- T-FONT-3. -/
theorem test_ldF : runs 0xF129 (withRegs [(1, 15)] { State.reset with i := 0x300 }) (fun t => t.i == 0x4B) = true := by decide
/-- T-FONT-2. -/
theorem test_ldF_beyond :
    runs 0xF129 (withRegs [(1, 16)] { State.reset with i := 0x300 }) (fun t => t.i == 0x300 && t.pc == 0x202) = true := by
  decide

/-! ### ALU -/

/-- T-MOV-3: `VF` is an ordinary source. -/
theorem test_ldReg : runs 0x81F0 (withRegs [(1, 0x11), (15, 1)] State.reset) (fun t => t.reg 1 == 1 && t.reg 15 == 1) = true := by
  decide
/-- T-OR-1: no flag. -/
theorem test_orReg : runs 0x8121 (withRegs [(1, 0xF0), (2, 0x0F), (15, 1)] State.reset)
    (fun t => t.reg 1 == 0xFF && t.reg 15 == 1) = true := by decide
/-- T-AND-1. -/
theorem test_andReg : runs 0x8122 (withRegs [(1, 0xF0), (2, 0x3C), (15, 1)] State.reset)
    (fun t => t.reg 1 == 0x30 && t.reg 15 == 1) = true := by decide
/-- T-XOR-1. -/
theorem test_xorReg : runs 0x8123 (withRegs [(1, 0xF0), (2, 0x3C), (15, 1)] State.reset)
    (fun t => t.reg 1 == 0xCC && t.reg 15 == 1) = true := by decide
/-- T-ADD-3: the sum 255 is no carry. -/
theorem test_addReg : runs 0x8124 (withRegs [(1, 0xFF), (15, 1)] State.reset)
    (fun t => t.reg 1 == 0xFF && t.reg 15 == 0) = true := by decide
/-- T-ADD-6: with x = 15 the flag remains. -/
theorem test_addReg_vf : runs 0x8F14 (withRegs [(15, 0xFF), (1, 2)] State.reset) (fun t => t.reg 15 == 1) = true := by decide
/-- T-SUB-3: equal operands give flag 0. -/
theorem test_subReg_equal : runs 0x8125 (withRegs [(1, 7), (2, 7), (15, 1)] State.reset)
    (fun t => t.reg 1 == 0 && t.reg 15 == 0) = true := by decide
/-- T-SUB-2. -/
theorem test_subReg_wraps : runs 0x8125 (withRegs [(1, 3), (2, 10), (15, 1)] State.reset)
    (fun t => t.reg 1 == 0xF9 && t.reg 15 == 0) = true := by decide
/-- T-SHR-1: `V2` is ignored. -/
theorem test_shr : runs 0x8126 (withRegs [(1, 5), (2, 0xF0)] State.reset) (fun t => t.reg 1 == 2 && t.reg 15 == 1) = true := by
  decide
/-- T-SHR-4: `SHIFT_SOURCE = y`. -/
theorem test_shr_y : runs 0x8126 (withRegs [(1, 5), (2, 0xF0)] (State.resetWith { Config.default with shiftSource := .y }))
    (fun t => t.reg 1 == 0x78 && t.reg 15 == 0 && t.reg 2 == 0xF0) = true := by decide
/-- T-SUBN-1. -/
theorem test_subn : runs 0x8127 (withRegs [(1, 3), (2, 10)] State.reset) (fun t => t.reg 1 == 7 && t.reg 15 == 1) = true := by
  decide
/-- T-SUBN-2. -/
theorem test_subn_wraps : runs 0x8127 (withRegs [(1, 10), (2, 3), (15, 1)] State.reset)
    (fun t => t.reg 1 == 0xF9 && t.reg 15 == 0) = true := by decide
/-- T-SHL-1. -/
theorem test_shl : runs 0x812E (withRegs [(1, 0x81), (2, 1)] State.reset) (fun t => t.reg 1 == 2 && t.reg 15 == 1) = true := by
  decide
/-- T-SHL-3: with x = 15 the flag remains. -/
theorem test_shl_vf : runs 0x8F2E (withRegs [(15, 0xC0)] State.reset) (fun t => t.reg 15 == 1) = true := by decide

/-! ### Display -/

/-- T-CLS-1. -/
theorem test_cls : runs 0x00E0 (lit [0, 63, 64, 2047] (withRegs [(15, 1)] State.reset))
    (fun t => shows t [] && t.reg 15 == 1 && t.pc == 0x202) = true := by decide
/-- T-DRW-2: cell 67 collides and is erased; T-DRW-13: the origin is read before `VF` is cleared. -/
theorem test_drw :
    (runs 0xD011 (lit [67] (withRegs [(0, 2), (1, 1), (15, 1)] (atI [0xC0] State.reset)))
      (fun t => shows t [66] && t.reg 15 == 1 && t.pc == 0x202) &&
     runs 0xDF01 (withRegs [(15, 3)] (atI [0x80] State.reset)) (fun t => shows t [3] && t.reg 15 == 0)) = true := by decide
/-- T-DRW-8: below the grid, and row 0 is not drawn either; T-DRW-12: the data fault comes first; T-DRW-9c: `clip`;
T-DRW-8w and T-DRW-9w: `wrap` in rows and in columns. -/
theorem test_drw_edges :
    (runs 0xD012 (withRegs [(1, 31), (15, 1)] (atI [0x80, 0x80] State.reset))
      (fun t => halts t 5 0x1F00 0x200 && shows t [] && t.reg 15 == 1) &&
     runs 0xD012 (withRegs [(0, 0xFF), (1, 0xFF)] { State.reset with i := 0xFFF }) (fun t => halts t 2 0x1000 0x200) &&
     runs 0xD011 (withRegs [(0, 62)] (atI [0xF0] (State.resetWith { Config.default with drawEdge := .clip })))
      (fun t => shows t [62, 63] && t.reg 15 == 0 && t.faultCause == 0) &&
     runs 0xD012 (lit [0] (withRegs [(1, 31)] (atI [0x80, 0x80] (State.resetWith { Config.default with drawEdge := .wrap }))))
      (fun t => shows t [1984] && t.reg 15 == 1) &&
     runs 0xD011 (withRegs [(0, 62)] (atI [0xF0] (State.resetWith { Config.default with drawEdge := .wrap })))
      (fun t => shows t [0, 1, 62, 63] && t.reg 15 == 0)) = true := by decide

/-! ### Timers and keys -/

/-- T-LDDT-1. -/
theorem test_ldVxDT : runs 0xF307 { State.reset with dt := 0x3C } (fun t => t.reg 3 == 0x3C && t.dt == 0x3C) = true := by decide
/-- T-STDT-1. -/
theorem test_ldDTVx : runs 0xF315 (withRegs [(3, 0x3C)] State.reset) (fun t => t.dt == 0x3C && t.st == 0) = true := by decide
/-- T-STST-1. -/
theorem test_ldSTVx : runs 0xF318 (withRegs [(3, 5)] State.reset) (fun t => t.st == 5 && t.dt == 0) = true := by decide
/-- T-KEY-1. -/
theorem test_ldVxK_waits : runs 0xF20A (withRegs [(2, 7)] State.reset) (fun t => t.pc == 0x200 && t.reg 2 == 7) = true := by decide
/-- T-KEY-2: the least of the keys pressed. -/
theorem test_ldVxK : runs 0xF20A { State.reset with keys := 0x0208 } (fun t => t.pc == 0x202 && t.reg 2 == 3) = true := by decide

/-! ### Memory transfer -/

/-- T-BCD-1. -/
theorem test_ldB : runs 0xF033 (withRegs [(0, 254)] { State.reset with i := 0x300 })
    (fun t => t.bytesFrom 0x300 3 == [2, 5, 4] && t.i == 0x300) = true := by decide
/-- T-BCD-4: nothing is written. -/
theorem test_ldB_beyond : runs 0xF033 (withRegs [(0, 7)] { State.reset with i := 0xFFE })
    (fun t => halts t 2 0x1000 0x200 && t.bytesFrom 0xFFE 2 == [0, 0]) = true := by decide
/-- T-ST-1: `V3` is excluded, `I` grows by 4. -/
theorem test_ldMemVx : runs 0xF355 (withRegs [(0, 0x11), (1, 0x22), (2, 0x33), (3, 0x44)] { State.reset with i := 0x300 })
    (fun t => t.bytesFrom 0x300 4 == [0x11, 0x22, 0x33, 0] && t.i == 0x304) = true := by decide
/-- T-ST-3: no access, so no fault. -/
theorem test_ldMemVx_empty : runs 0xF055 { State.reset with i := 0xFFFF } (fun t => t.i == 0 && t.pc == 0x202) = true := by decide
/-- T-LDM-1: `V3` and `I` stay. -/
theorem test_ldVxMem : runs 0xF365 (withRegs [(3, 0x99)] (atI [1, 2, 3, 4] State.reset))
    (fun t => t.regsBelow 4 == [1, 2, 3, 0x99] && t.i == 0x300) = true := by decide
/-- T-LDM-4. -/
theorem test_ldVxMem_beyond : runs 0xF265 { State.reset with i := 0xFFF } (fun t => halts t 2 0x1000 0x200 && t.reg 0 == 0) = true := by
  decide

/-! ### Unrecognised words, fetch, and the host's actions -/

/-- T-NOP-5: 0nnn is not a call. -/
theorem test_nop : runs 0x0300 { State.reset with sp := 1 } (fun t => t.pc == 0x202 && t.sp == 1) = true := by decide
/-- T-FETCH-3. -/
theorem test_fetch_last : runs 0x6A05 { State.reset with pc := 0xFFE } (fun t => t.pc == 0x1000 && t.reg 10 == 5) = true := by decide
/-- T-FETCH-1. -/
theorem test_fetch_beyond : takes .cycle { State.reset with pc := 0xFFF } (fun t => halts t 1 0xFFF 0xFFF) = true := by decide
/-- T-FETCH-4: the font area may be executed and overwritten. -/
theorem test_fetch_low : runs 0x6A05 { State.reset with pc := 0 } (fun t => t.pc == 2 && t.reg 10 == 5) = true := by decide
/-- R25, R161. -/
theorem test_halted_cycle : stops { State.reset with faultCause := 4 } = some (.inl (.halted 4 0)) := by decide
/-- T-TICK-1 and T-TICK-5, halted. -/
theorem test_tick : takes .tick { State.reset with dt := 2, faultCause := 4 }
    (fun t => t.dt == 1 && t.st == 0 && t.faultCause == 4) = true := by decide
/-- T-TICK-3. -/
theorem test_tick_full : takes .tick { State.reset with dt := 0xFF, st := 0xFF } (fun t => t.dt == 0xFE && t.st == 0xFE) = true := by
  decide
/-- R24. -/
theorem test_setKeys : takes (.setKeys 0x8001) State.reset (fun t => t.keys == 0x8001) = true := by decide
/-- T-RESET-1. -/
theorem test_reset_action :
    takes .reset (lit [5] (withRegs [(3, 9)] (atI [7] { State.reset with faultCause := 4, keys := 0x80, sp := 3 })))
      (fun t => t == { State.reset with keys := 0x80 }) = true := by decide
/-- T-RESET-2 and R191: the first Cycle after reset with nothing loaded is a no-operation. -/
theorem test_reset_cycle : takes .cycle State.reset (fun t => t == { State.reset with pc := 0x202, fresh := false }) = true := by
  decide
/-- T-LOAD-1. -/
theorem test_load : takes (.load [0x6A, 0x05]) State.reset (fun t => t.mem == [(0x200, 0x6A), (0x201, 0x05)]) = true := by decide
/-- R195: no `Load` once a Cycle has been taken. -/
theorem test_load_late :
    stops { State.reset with fresh := false, agenda := [.load [1]] } = some (.inr .loadAfterStart) := by decide
/-- R24: what the host reads. -/
theorem test_hostView : ({ State.reset with st := 7 } : State).hostView = ⟨State.reset.disp, 7, 0, 0⟩ := by decide
/-- R43: writing the reset contents unlists the address. -/
theorem test_memory_canonical : ((State.reset.putByte 0x300 5).putByte 0x300 0).mem = [] := by decide

/-! ### States that meet the hypotheses of the obligations, clause by clause -/

theorem test_meets_DecodeEncodeAgree : (Instr.nop 0xFFFF).wf = true ∧ (Instr.drw 15 0 15).wf = true := by decide

theorem test_meets_DecoderFollowsTheOpcodeMap :
    (⟨18, "SHL_Vx____Vy", 0x800E, 0xF00F⟩ ∈ opcodeRows ∧ (0x8FFE : Word) &&& 0xF00F = 0x800E) ∧
    (∀ r ∈ opcodeRows, (0x8FFF : Word) &&& r.mask ≠ r.pattern) := by decide

/-- The highest `pc` that fetches, with a `Cycle` at the head of the agenda. -/
theorem test_meets_StepRunsTheDecodedInstruction :
    let s := { State.reset with pc := 0xFFE, agenda := [.cycle, .tick] }
    cycleDue s ∧ running s ∧ s.pc.toNat ≤ 0xFFE ∧
      decode (s.byteAt s.pc.toNat :: s.byteAt (s.pc.toNat + 1) :: []) = .ok (.nop 0, []) :=
  ⟨.inr ⟨_, rfl⟩, rfl, by decide, rfl⟩

theorem test_meets_FetchIsBigEndianAndChecked :
    let s := { State.reset with pc := 0xFFE }
    let u := { State.reset with pc := 0xFFF }
    (cycleDue s ∧ running s ∧ s.pc.toNat ≤ 0xFFE) ∧ (cycleDue u ∧ running u ∧ 0xFFF ≤ u.pc.toNat) :=
  ⟨⟨.inl rfl, rfl, by decide⟩, ⟨.inl rfl, rfl, by decide⟩⟩

theorem test_meets_HaltedEngineTakesNoCycle :
    let s := { State.reset with faultCause := 6, faultInfo := 16 }
    cycleDue s ∧ ¬running s := ⟨.inl rfl, by decide⟩

theorem test_meets_SetKeysReplacesTheKeys :
    ({ State.reset with agenda := [.setKeys 0x8001] } : State).agenda = .setKeys 0x8001 :: [] := rfl

theorem test_meets_TickCountsTheTimersDown :
    ({ State.reset with dt := 0xFF, agenda := [.tick, .cycle] } : State).agenda = .tick :: [.cycle] := rfl

/-- A load of exactly 3584 bytes, of 3585, and one after a `Cycle`. -/
theorem test_meets_LoadCopiesTheProgram :
    (∃ (s : State) (bytes : List Byte), s.agenda = .load bytes :: [] ∧ s.fresh = true ∧ bytes.length = 3584) ∧
      (∃ (s : State) (bytes : List Byte), s.agenda = .load bytes :: [] ∧ s.fresh = true ∧ bytes.length = 3585) ∧
      (∃ (s : State) (bytes : List Byte), s.agenda = .load bytes :: [] ∧ s.fresh = false) :=
  ⟨⟨{ State.reset with agenda := [.load (List.replicate 3584 0xFF)] }, _, rfl, rfl, List.length_replicate⟩,
    ⟨{ State.reset with agenda := [.load (List.replicate 3585 0xFF)] }, _, rfl, rfl, List.length_replicate⟩,
    ⟨{ State.reset with fresh := false, agenda := [.load [1]] }, _, rfl, rfl⟩⟩

theorem test_meets_ResetActionClearsAllButKeys :
    ({ State.reset with faultCause := 4, agenda := [.reset] } : State).agenda = .reset :: [] := rfl

/-- 15 entries in use leave room for one more; 16 do not. -/
theorem test_meets_CallPushesItsOwnAddress :
    ({ State.reset with sp := 15 } : State).sp.val < 16 ∧ ({ State.reset with sp := 16 } : State).sp.val = 16 := by decide

theorem test_meets_ReturnResumesAfterTheCall :
    (0 < ({ State.reset with sp := 1 } : State).sp.val ∧ ({ State.reset with sp := 16 } : State).sp.val - 1 < 16) ∧
      State.reset.sp.val = 0 := by decide

theorem test_meets_CallThenReturn :
    let s := { State.reset with sp := 15 }
    s.sp.val < 16 ∧ ∃ t, exec (.call 0x300) s = .next t ∧
      ∃ u : State, u.stack = t.stack ∧ u.sp = t.sp ∧ u.pc = 0x3FE :=
  ⟨by decide, _, rfl, { State.reset with stack := State.reset.stack.set 15 0x200, sp := 16, pc := 0x3FE }, rfl, rfl, rfl⟩

theorem test_meets_CompareSkipsByFourOrTwo : (15 : RegNo) ≠ 0 ∧ (1 : RegNo) ≠ 0 := by decide

theorem test_meets_KeySkipsTestOneKey :
    (withRegs [(4, 15)] State.reset).reg 4 = 15 ∧ (15 : Byte).toNat ≤ 15 ∧
      (withRegs [(4, 16)] State.reset).reg 4 = 16 ∧ 15 < (16 : Byte).toNat := by decide

theorem test_meets_IndexLoadAndFontAddress :
    ((withRegs [(1, 15)] State.reset).reg 1).toNat < 16 ∧ 16 ≤ ((withRegs [(1, 16)] State.reset).reg 1).toNat := by decide

theorem test_meets_RandomByteIsMaskedAndFree : (0x81 : Byte) &&& 0x83 = 0x81 := by decide

theorem test_meets_AddReportsItsCarry :
    let s := withRegs [(1, 0xFF), (2, 0)] State.reset
    let u := withRegs [(1, 0xFF), (2, 1)] State.reset
    (1 : RegNo) ≠ 15 ∧ (s.reg 1).toNat + (s.reg 2).toNat ≤ 255 ∧ 255 < (u.reg 1).toNat + (u.reg 2).toNat := by decide

theorem test_meets_SubtractComparesStrictly :
    let s := withRegs [(1, 7), (2, 7)] State.reset
    let u := withRegs [(1, 8), (2, 7)] State.reset
    (14 : RegNo) ≠ 15 ∧ (s.reg 1).toNat ≤ (s.reg 2).toNat ∧ (s.reg 2).toNat ≤ (s.reg 1).toNat ∧
      (u.reg 2).toNat < (u.reg 1).toNat := by decide

theorem test_meets_ShiftsReportTheBitShiftedOut :
    let s := withRegs [(1, 0x81), (2, 0xF0)] State.reset
    let u := withRegs [(1, 0x81), (2, 0xF0)] (State.resetWith { Config.default with shiftSource := .y })
    (s.cfg.shiftSource = .x ∧ s.reg 1 = 0x81) ∧ (u.cfg.shiftSource = .y ∧ u.reg 2 = 0xF0) := by decide

/-- A two-row sprite at the last byte of memory; one bit in column 64; one bit in the last cell of the grid. -/
theorem test_meets_DrawXorsTheSprite :
    let s := { State.reset with i := 0xFFF }
    let u := withRegs [(0, 57)] (atI [0x01] State.reset)
    let v := withRegs [(0, 56), (1, 31)] (atI [0x01] State.reset)
    s.cfg.drawEdge = .fault ∧ ¬dataFits s (2 : BitVec 4).toNat ∧
      (u.cfg.drawEdge = .fault ∧ dataFits u (1 : BitVec 4).toNat ∧
        ∃ cx cy, spriteLands false u 0 1 1 cx cy ∧ (63 < cx ∨ 31 < cy)) ∧
      (v.cfg.drawEdge = .fault ∧ dataFits v (1 : BitVec 4).toNat ∧
        (∀ cx cy, spriteLands false v 0 1 1 cx cy → cx ≤ 63 ∧ cy ≤ 31) ∧ spriteLands false v 0 1 1 63 31) := by
  refine ⟨rfl, ?_, ⟨rfl, ?_, 64, 0, ⟨0, 7, by decide, by decide, by decide, by decide⟩, .inl (by decide)⟩, rfl, ?_,
    ?_, ⟨0, 7, by decide, by decide, by decide, by decide⟩⟩
  · rintro (h | h) <;> exact absurd h (by decide)
  · exact .inr (by decide)
  · exact .inr (by decide)
  · rintro cx cy ⟨r, c, hr, hc, -, h1, h2⟩
    have hr : r = 0 := by simpa using hr
    subst hr
    exact ⟨h1 ▸ show 56 + c ≤ 63 by omega, h2 ▸ show 31 + 0 ≤ 31 by omega⟩

/-- The last byte of memory, under `clip` and under `wrap`. -/
theorem test_meets_DrawClipsOrWraps :
    let s := { State.resetWith { Config.default with drawEdge := .clip } with i := 0xFFF }
    let u := { State.resetWith { Config.default with drawEdge := .wrap } with i := 0xFFF }
    (s.cfg.drawEdge = (if false then .wrap else .clip) ∧ dataFits s (1 : BitVec 4).toNat) ∧
      (u.cfg.drawEdge = (if true then .wrap else .clip) ∧ dataFits u (1 : BitVec 4).toNat) :=
  ⟨⟨rfl, .inr (by decide)⟩, rfl, .inr (by decide)⟩

theorem test_meets_DrawTwiceRestoresTheDisplay :
    let s := withRegs [(0, 2), (1, 1)] (atI [0xC0] State.reset)
    ∃ t u : State, exec (.drw 0 1 1) s = .next t ∧ running t ∧ u.reg 0 = s.reg 0 ∧ u.reg 1 = s.reg 1 ∧ u.i = s.i ∧
      u.cfg = s.cfg ∧ (∀ a, u.byteAt a = s.byteAt a) ∧ u.disp = t.disp := by
  refine ⟨_, { withRegs [(0, 2), (1, 1)] (atI [0xC0] State.reset) with disp := lit [66, 67] State.reset |>.disp }, rfl, rfl,
    rfl, rfl, rfl, rfl, fun _ => rfl, ?_⟩
  decide

theorem test_meets_KeyWaitHoldsOrTakesTheLeastKey :
    (∀ k, k < 16 → State.reset.keys.getLsbD k = false) ∧
      (({ State.reset with keys := 0x8000 } : State).keys.getLsbD 15 = true ∧
        ∀ j, j < 15 → ({ State.reset with keys := 0x8000 } : State).keys.getLsbD j = false) := by decide

/-- The last place where three bytes fit, and the next. -/
theorem test_meets_DecimalDigitsAreStored :
    ({ State.reset with i := 0xFFD } : State).i.toNat ≤ 0xFFD ∧
      0xFFD < ({ State.reset with i := 0xFFE } : State).i.toNat := by decide

/-- A count of 15 up to the last byte, a count of 0 anywhere, and a count of 2 from the last byte. -/
theorem test_meets_RegisterDumpStoresBelowX :
    dataFits { State.reset with i := 0xFF1 } (15 : RegNo).toNat ∧ dataFits { State.reset with i := 0xFFFF } (0 : RegNo).toNat ∧
      ¬dataFits { State.reset with i := 0xFFF } (2 : RegNo).toNat := by
  refine ⟨.inr (by decide), .inl (by decide), ?_⟩
  rintro (h | h) <;> exact absurd h (by decide)

theorem test_meets_RegisterLoadFillsBelowX :
    (dataFits { State.reset with i := 0xFFF } (1 : RegNo).toNat ∧ (0 : RegNo).toNat < (1 : RegNo).toNat) ∧
      ¬dataFits { State.reset with i := 0x1000 } (1 : RegNo).toNat := by
  refine ⟨⟨.inr (by decide), by decide⟩, ?_⟩
  rintro (h | h) <;> exact absurd h (by decide)

theorem test_meets_LoadReadsBackADump :
    let s := withRegs [(0, 0x11), (1, 0x22)] { State.reset with i := 0x300 }
    ∃ t u : State, dataFits s (2 : RegNo).toNat ∧ exec (.ldMemVx 2) s = .next t ∧ u.i = s.i ∧ u.mem = t.mem ∧ u.cfg = t.cfg :=
  ⟨_, { State.reset with i := 0x300, mem := [(0x300, 0x11), (0x301, 0x22)] }, .inr (by decide), rfl, rfl, rfl, rfl⟩

/-- The two highest addresses. -/
theorem test_meets_StoredBytesAreFetched :
    let s := withRegs [(0, 0x12), (1, 0x02)] { State.reset with i := 0xFFE }
    ∃ t u : State, dataFits s (2 : RegNo).toNat ∧ exec (.ldMemVx 2) s = .next t ∧ (0 : RegNo).toNat + 1 = (1 : RegNo).toNat ∧
      (1 : RegNo).toNat < (2 : RegNo).toNat ∧ u.mem = t.mem ∧ u.cfg = t.cfg ∧ u.pc.toNat = s.i.toNat + (0 : RegNo).toNat :=
  ⟨_, { State.reset with pc := 0xFFE, mem := [(0xFFE, 0x12), (0xFFF, 0x02)] }, .inr (by decide), rfl, by decide, by decide,
    rfl, rfl, rfl⟩

theorem test_meets_UnrecognisedWordOnlyAdvances : ∀ r ∈ opcodeRows, (0x00EF : Word) &&& r.mask ≠ r.pattern := by decide

/-- One instruction that completes and one that faults. -/
theorem test_meets_PcAfterEachInstruction :
    running State.reset ∧ (∃ t, exec (.jp 0xFFF) State.reset = .next t ∧ running t) ∧
      (∃ t, exec .ret State.reset = .next t ∧ ¬running t) :=
  ⟨rfl, ⟨_, rfl, rfl⟩, _, rfl, by decide⟩

theorem test_meets_FaultsArePrecise :
    let s := { State.reset with pc := 0xFFF }
    ∃ t, cycleDue s ∧ running s ∧ step s = .next t ∧ ¬running t :=
  ⟨_, .inl rfl, rfl, rfl, by decide⟩

/-- Each of the five faults an instruction can raise. -/
theorem test_meets_FaultTableIsComplete :
    let big := withRegs [(4, 0x10), (0, 64)] (atI [0x80] State.reset)
    running big ∧ (∃ t, exec (.ldB 0) { State.reset with i := 0xFFE } = .next t ∧ t.faultCause = 2) ∧
      (∃ t, exec (.call 0) { State.reset with sp := 16 } = .next t ∧ t.faultCause = 3) ∧
      (∃ t, exec .ret State.reset = .next t ∧ t.faultCause = 4) ∧
      (∃ t, exec (.drw 0 1 1) big = .next t ∧ t.faultCause = 5) ∧ (∃ t, exec (.sknp 4) big = .next t ∧ t.faultCause = 6) :=
  ⟨rfl, ⟨_, rfl, rfl⟩, ⟨_, rfl, rfl⟩, ⟨_, rfl, rfl⟩, ⟨_, rfl, rfl⟩, _, rfl, rfl⟩

theorem test_meets_OnlyTheNamedInstructionsWrite :
    ∃ t, exec (.ldMemVx 1) (withRegs [(0, 9)] { State.reset with i := 0x300 }) = .next t ∧ t.mem ≠ [] ∧ t.i ≠ 0x300 :=
  ⟨_, rfl, by decide, by decide⟩

theorem test_meets_FlagWritersLeaveZeroOrOne :
    running State.reset ∧ (∃ t, exec (.addReg 15 1) State.reset = .next t ∧ running t ∧ (Instr.addReg 15 1).row ∈ [14]) ∧
      (∃ t, exec (.ldImm 15 7) State.reset = .next t ∧ running t ∧ t.reg 15 ≠ State.reset.reg 15) :=
  ⟨rfl, ⟨_, rfl, rfl, by decide⟩, _, rfl, rfl, by decide⟩

theorem test_meets_NoInstructionReadsTheSoundTimer : ∀ x, Instr.ldDTVx 3 ≠ .ldSTVx x := fun _ => nofun

theorem test_meets_OnlyKeyInstructionsReadTheKeys : (Instr.ldVxDT 3).row ∉ [24, 25, 27] := by decide

theorem test_meets_DelayTimerRisesOnlyByFx15 :
    let s := (withRegs [(3, 0x3C)] State.reset).withFetchWord 16 0xF315
    ∃ t, step s = .next t ∧ s.dt.toNat < t.dt.toNat := ⟨_, rfl, by decide⟩

theorem test_meets_ParametersNeverChange : ∃ t, step { State.reset with agenda := [.reset] } = .next t := ⟨_, rfl⟩

/-- `JP 0xFFE` at 0xFFE, the highest self-jump. -/
theorem test_meets_SelfJumpChangesNothing :
    let s := { State.reset with pc := 0xFFE, mem := [(0xFFE, 0x1F), (0xFFF, 0xFE)] }
    final s ∧ s.agenda = [] := ⟨⟨by decide, rfl, by decide, by decide⟩, rfl⟩

/-- A state with listed bytes at both ends of memory, and one with a fault latched. -/
theorem test_meets_StepKeepsMemoryAndLatch :
    let s := { State.reset with mem := [(0, 0x11), (0xFFF, 0x22)] }
    let u := { s with faultCause := 2, faultInfo := 0x1000, agenda := [.tick] }
    (memoryAndLatch s ∧ ∃ t, step s = .next t) ∧ (memoryAndLatch u ∧ ∃ t, step u = .next t) :=
  ⟨⟨⟨by decide, by decide, by decide⟩, _, rfl⟩, ⟨by decide, by decide, by decide⟩, _, rfl⟩

/-- The largest `pc` and the largest stack entry the invariant admits. -/
theorem test_meets_StepKeepsControlInBounds :
    let s := { State.reset with pc := 0x10FE, sp := 1, stack := State.reset.stack.set 0 0xFFE }
    controlInBounds s ∧ ∃ t, step s = .next t :=
  ⟨⟨by decide, by decide⟩, _, rfl⟩

end Sys2Proof.Tests
end

/-! PROOFS. What one instruction can do, said once: it completes, moving `pc` by its rule (R14) and changing nothing outside
its footprint, or it raises a fault (R161). -/

namespace Sys2Proof.Safety

open Sys2Proof.Machine

/-- The rows of the six instructions that write `VF` as a flag (R18). -/
abbrev flagRows : List Nat := [14, 15, 16, 17, 18, 23]

/-- What each instruction may change besides `pc` (10_state.md section 1, the column "written by"). -/
def footprint (s : State) : Instr → Footprint
  | .cls => { disp := true }
  | .ret => { sp := true }
  | .call _ => { entries := [s.sp.val], sp := true }
  | .ldImm x _ | .addImm x _ | .ldReg x _ | .orReg x _ | .andReg x _ | .xorReg x _ | .ldVxDT x | .ldVxK x =>
    { regs := [x] }
  | .addReg x _ | .subReg x _ | .shr x _ | .subn x _ | .shl x _ => { regs := [x, 15] }
  | .rnd x _ => { regs := [x], draw := true }
  | .drw _ _ _ => { regs := [15], disp := true }
  | .ldDTVx _ => { dt := true }
  | .ldSTVx _ => { st := true }
  | .ldI _ | .addI _ | .ldF _ => { i := true }
  | .ldB _ => { bytes := addrsFrom (s.dataAddr 0) 3 }
  | .ldMemVx x => { bytes := addrsFrom (s.dataAddr 0) x.toNat, i := true }
  | .ldVxMem x => { regs := (List.range x.toNat).map (BitVec.ofNat 4) }
  | .jp _ | .jpV0 _ | .seImm _ _ | .sneImm _ _ | .seReg _ _ | .sneReg _ _ | .skp _ | .sknp _ | .nop _ => {}

/-- What an instruction that raises no fault does. -/
structure Completes (i : Instr) (s t : State) : Prop where
  /-- R14 a to e -/
  pc : pcRule s t.pc.toNat i
  /-- nothing outside the footprint and `pc` changes -/
  frame : (footprint s i).keeps s t
  /-- only Fx33 and Fx55 touch the list that holds memory, not merely what it reads as -/
  mem : i.row ∉ [32, 33] → t.mem = s.mem
  /-- R18 -/
  flag : i.row ∈ flagRows → t.reg vf = 0 ∨ t.reg vf = 1

/-! ### Frames of the compound updates -/

theorem keeps_reg {f : Footprint} {s t : State} {r : RegNo} (h : f.keeps s t) (hr : r ∉ f.regs) : t.reg r = s.reg r :=
  h.1 r hr

theorem keeps_setRegs (s : State) (n : Nat) (bs : List Byte) (hn : bs.length = n) (h16 : n ≤ 16) :
    ({ regs := (List.range n).map (BitVec.ofNat 4) } : Footprint).keeps s (s.setRegs 0 bs) := by
  refine ⟨fun r hr => State.reg_setRegs_outside s 0 bs r (by omega) (.inr ?_), by simp [State.byteAt]⟩
  by_contra hlt
  exact hr (List.mem_map.mpr ⟨r.toNat, List.mem_range.mpr (by omega), by simp⟩)

theorem keeps_drawn (s : State) (x : RegNo) (b : Byte) :
    ({ regs := [x], draw := true } : Footprint).keeps s (s.afterDraw.setReg x b) :=
  keeps_trans (keeps_afterDraw s) (keeps_setReg _ x b) (by simp) (by simp) (by simp) (by simp) (by simp) (by simp)
    (by simp) (by simp) (by simp)

theorem keeps_plotted (s : State) (d : Display) (b : Byte) :
    ({ regs := [15], disp := true } : Footprint).keeps s ({ s with disp := d }.setReg vf b) :=
  keeps_trans (keeps_display s d) (keeps_setReg _ vf b) (by simp) (by simp) (by simp) (by simp) (by simp) (by simp)
    (by simp) (by simp) (by simp)

theorem keeps_dumped (s : State) (a n : Nat) (bs : List Byte) (w : Word) (hn : bs.length = n) :
    ({ bytes := addrsFrom a n, i := true } : Footprint).keeps s { s.putBytes a bs with i := w } := by
  subst hn
  exact keeps_trans (keeps_putBytes s a bs) (keeps_index _ w) (by simp) (by simp) (by simp) (by simp) (by simp) (by simp)
    (by simp) (by simp) (by simp)

theorem keeps_pushed (s : State) (a p : Word) (k : Fin 17) (h : s.sp.val < 16) :
    ({ entries := [s.sp.val], sp := true } : Footprint).keeps s
      { s with stack := s.stack.set s.sp.val a h, sp := k, pc := p } := by
  refine ⟨fun _ _ => rfl, fun _ _ => rfl, fun j hj hne => ?_, by simp⟩
  have hj' : s.sp.val ≠ j := fun e => hne (by simp [e])
  simp [hj']

theorem keeps_popped (s : State) (k : Fin 17) (p : Word) :
    ({ sp := true } : Footprint).keeps s { s with sp := k, pc := p } := by
  simp [Footprint.keeps, State.reg, State.byteAt]

theorem keeps_delay (s : State) (b : Byte) : ({ dt := true } : Footprint).keeps s { s with dt := b } := by
  simp [Footprint.keeps, State.reg, State.byteAt]

theorem keeps_sound (s : State) (b : Byte) : ({ st := true } : Footprint).keeps s { s with st := b } := by
  simp [Footprint.keeps, State.reg, State.byteAt]

/-! ### The shapes of completion -/

section

variable {i : Instr} {s : State}

/-- An instruction that changes its footprint and then advances by 2 (R14 a). -/
theorem completes_advance {u : State} (hf : (footprint s i).keeps s u) (hpc : u.pc = s.pc)
    (hrule : ∀ p, p = (s.pc.toNat + 2) % 65536 → pcRule s p i) (hm : i.row ∉ [32, 33] → u.mem = s.mem)
    (hflag : i.row ∈ flagRows → u.reg vf = 0 ∨ u.reg vf = 1 := by simp [Instr.row]) : Completes i s u.advance :=
  ⟨hrule _ (by rw [State.advance_toNat, hpc]), keeps_advance hf, hm, hflag⟩

/-- An instruction that writes one register, no flag, and advances. -/
theorem completes_setReg {x : RegNo} {b : Byte} (hf : footprint s i = { regs := [x] })
    (hrule : ∀ p, p = (s.pc.toNat + 2) % 65536 → pcRule s p i) (hflag : i.row ∉ flagRows := by simp [Instr.row]) :
    Completes i s (s.setReg x b).advance :=
  completes_advance (hf ▸ keeps_setReg s x b) rfl hrule (fun _ => rfl) fun h => absurd h hflag

/-- The five flag writers of the ALU group: the flag is written last (R119). -/
theorem completes_aluFlag {x : RegNo} {b : Byte} {c : Bool} (hf : footprint s i = { regs := [x, 15] })
    (hrule : ∀ p, p = (s.pc.toNat + 2) % 65536 → pcRule s p i) : Completes i s (s.aluFlag x b (flagOf c)) := by
  refine completes_advance (hf ▸ keeps_aluFlag s x b (flagOf c)) rfl hrule (fun _ => rfl) fun _ => ?_
  rw [State.reg_setReg_same]
  exact flagOf_zero_or_one c

/-- An instruction that writes `pc` only. -/
theorem completes_pc {p : Word} (hrule : pcRule s p.toNat i) (hflag : i.row ∉ flagRows := by simp [Instr.row]) :
    Completes i s { s with pc := p } :=
  ⟨hrule, keeps_pc _ s p, fun _ => rfl, fun h => absurd h hflag⟩

/-- A skip on a condition the model tests as a Boolean (R14 b). -/
theorem completes_skip {P : Prop} {c : Bool} (hc : c = true ↔ P)
    (hrule : ∀ p, skipPc s P p → pcRule s p i) (hflag : i.row ∉ flagRows := by simp [Instr.row]) : Completes i s (s.skipIf c) :=
  completes_pc (hrule _ (propext hc ▸ State.skipIf_spec s c)) hflag

end

/-! ### Instructions that may fault -/

/-- R80, R16: `RET` pops, or faults on an empty stack. -/
theorem exec_ret (s : State) :
    (∃ (_ : 0 < s.sp.val) (h : s.sp.val - 1 < 16),
      exec .ret s = .next { s with sp := ⟨s.sp.val - 1, by omega⟩, pc := s.stack[s.sp.val - 1]'h + 2 }) ∨
    (s.sp.val = 0 ∧ exec .ret s = raise .stackUnderflow s) := by
  show (∃ _ _, execRet s = _) ∨ (_ ∧ execRet s = _)
  unfold execRet
  rcases Nat.eq_zero_or_pos s.sp.val with h | h
  · exact .inr ⟨h, by rw [State.pop_empty h]⟩
  · exact .inl ⟨h, by omega, by rw [State.pop_entry h]⟩

/-- R81, R16: `CALL` pushes its own address, or faults on a full stack. -/
theorem exec_call (s : State) (nnn : Addr) :
    (∃ h : s.sp.val < 16, exec (.call nnn) s =
      .next { s with stack := s.stack.set s.sp.val s.pc h, sp := ⟨s.sp.val + 1, by omega⟩, pc := addrOperand nnn }) ∨
    (s.sp.val = 16 ∧ exec (.call nnn) s = raise .stackOverflow s) := by
  show (∃ _, execCall nnn s = _) ∨ (_ ∧ execCall nnn s = _)
  unfold execCall
  by_cases h : s.sp.val < 16
  · exact .inl ⟨h, by rw [State.push_room _ h]⟩
  · have h16 : s.sp.val = 16 := by omega
    exact .inr ⟨h16, by rw [State.push_full _ h16]⟩

/-- An instruction with a data access completes if what it goes on to does, or raises the data fault (R44). -/
theorem completes_or_raises_withData {s : State} {n : Nat} {go : Result} {P : State → Prop}
    (h : (∃ t, go = .next t ∧ P t) ∨ ∃ e, go = raise e s) :
    (∃ t, s.withData n go = .next t ∧ P t) ∨ ∃ e, s.withData n go = raise e s := by
  unfold State.withData
  cases s.dataTrap n with
  | none => exact h
  | some e => exact .inr ⟨e, rfl⟩

/-- A key skip tests the key its register names, or faults on an index above 15 (R94, R95). -/
theorem keyIndex_cases (s : State) (x : RegNo) :
    s.keyIndex x = .ok (s.reg x).toNat ∨ s.keyIndex x = .error (.keyIndexOutOfRange (s.reg x)) := by
  rcases Nat.lt_or_ge 15 (s.reg x).toNat with h | h
  · exact .inr (State.keyIndex_bad h)
  · exact .inl (State.keyIndex_ok h)

/-- The key wait holds exactly when no key is down (R138). -/
theorem lowestKey_none_iff (s : State) : s.lowestKey = none ↔ s.keys = 0 := by
  rw [State.lowestKey_none]
  refine ⟨fun h => BitVec.eq_of_getLsbD_eq fun k hk => ?_, fun h k _ => by simp [h]⟩
  simpa using h k hk

/-- R14, R161: every instruction completes or raises a fault, from every state. -/
theorem exec_completes_or_raises (i : Instr) (s : State) :
    (∃ t, exec i s = .next t ∧ Completes i s t) ∨ ∃ e, exec i s = raise e s := by
  cases i with
  | cls => exact .inl ⟨_, rfl, completes_advance (keeps_display s _) rfl (fun _ => id) (fun _ => rfl)⟩
  | ret =>
    rcases exec_ret s with ⟨-, h, e⟩ | ⟨-, e⟩
    · exact .inl ⟨_, e, ⟨h, by simp [BitVec.toNat_add]⟩, keeps_popped s _ _, fun _ => rfl, by simp [Instr.row]⟩
    · exact .inr ⟨_, e⟩
  | call nnn =>
    rcases exec_call s nnn with ⟨h, e⟩ | ⟨-, e⟩
    · exact .inl ⟨_, e, addrOperand_toNat nnn, keeps_pushed s _ _ _ h, fun _ => rfl, by simp [Instr.row]⟩
    · exact .inr ⟨_, e⟩
  | jp nnn => exact .inl ⟨_, rfl, completes_pc (addrOperand_toNat nnn)⟩
  | jpV0 nnn =>
    refine .inl ⟨_, rfl, completes_pc ?_⟩
    show (addrOperand nnn + byteOperand (s.reg 0)).toNat = nnn.toNat + (s.reg 0).toNat
    rw [BitVec.toNat_add, addrOperand_toNat, byteOperand_toNat]
    omega
  | seImm | seReg => exact .inl ⟨_, rfl, completes_skip beq_iff_eq (fun _ => id)⟩
  | sneImm | sneReg => exact .inl ⟨_, rfl, completes_skip bne_iff_ne (fun _ => id)⟩
  | skp x =>
    show (∃ t, execSkp x s = _ ∧ _) ∨ ∃ e, execSkp x s = _
    unfold execSkp
    rcases keyIndex_cases s x with e | e <;> rw [e]
    · exact .inl ⟨_, rfl, completes_skip Iff.rfl (fun _ => id)⟩
    · exact .inr ⟨_, rfl⟩
  | sknp x =>
    show (∃ t, execSknp x s = _ ∧ _) ∨ ∃ e, execSknp x s = _
    unfold execSknp
    rcases keyIndex_cases s x with e | e <;> rw [e]
    · exact .inl ⟨_, rfl, completes_skip (by simp) (fun _ => id)⟩
    · exact .inr ⟨_, rfl⟩
  | ldVxK x =>
    show (∃ t, execLdVxK x s = _ ∧ _) ∨ ∃ e, execLdVxK x s = _
    unfold execLdVxK
    have hk := lowestKey_none_iff s
    cases hl : s.lowestKey with
    | none =>
      have h0 : s.keys = 0 := hk.mp hl
      exact .inl ⟨s, rfl, ⟨fun _ => rfl, fun h => absurd h0 h⟩, keeps_refl _ s, fun _ => rfl, by simp [Instr.row]⟩
    | some k =>
      have h0 : s.keys ≠ 0 := fun h => by simp [hk.mpr h] at hl
      exact .inl ⟨_, rfl, completes_setReg rfl (fun _ hp => ⟨fun h => absurd h h0, fun _ => hp⟩)⟩
  | ldImm | addImm | ldReg | orReg | andReg | xorReg | ldVxDT => exact .inl ⟨_, rfl, completes_setReg rfl (fun _ => id)⟩
  | addReg | subReg | shr | subn | shl => exact .inl ⟨_, rfl, completes_aluFlag rfl (fun _ => id)⟩
  | ldI | addI | ldF => exact .inl ⟨_, rfl, completes_advance (keeps_index s _) rfl (fun _ => id) (fun _ => rfl)⟩
  | ldDTVx x => exact .inl ⟨_, rfl, completes_advance (keeps_delay s _) rfl (fun _ => id) (fun _ => rfl)⟩
  | ldSTVx x => exact .inl ⟨_, rfl, completes_advance (keeps_sound s _) rfl (fun _ => id) (fun _ => rfl)⟩
  | rnd x kk =>
    exact .inl ⟨_, rfl, completes_advance (keeps_drawn s x _) (by simp) (fun _ => id) (by simp)⟩
  | drw x y n =>
    refine completes_or_raises_withData ?_
    cases edgeCells s.cfg.drawEdge (s.spriteOf x y n) with
    | none => exact .inr ⟨_, rfl⟩
    | some cells =>
      refine .inl ⟨_, rfl, completes_advance (keeps_plotted s _ _) rfl (fun _ => id) (fun _ => rfl) fun _ => ?_⟩
      rw [State.reg_setReg_same]
      exact flagOf_zero_or_one _
  | ldB x =>
    exact completes_or_raises_withData (.inl ⟨_, rfl, completes_advance (keeps_putBytes s _ _) (by simp) (fun _ => id)
      (by simp [Instr.row])⟩)
  | ldMemVx x =>
    exact completes_or_raises_withData (.inl ⟨_, rfl, completes_advance (keeps_dumped s _ _ _ _ (by simp)) (by simp)
      (fun _ => id) (by simp [Instr.row])⟩)
  | ldVxMem x =>
    exact completes_or_raises_withData (.inl ⟨_, rfl, completes_advance (keeps_setRegs s _ _ (by simp) (by omega)) (by simp)
      (fun _ => id) (by simp)⟩)
  | nop w => exact .inl ⟨_, rfl, completes_advance (keeps_refl _ s) rfl (fun _ => id) (fun _ => rfl)⟩

/-! ### What a next state says -/

theorem trapCode_ne_zero (e : Trap) : trapCode e ≠ 0 := by cases e <;> simp [trapCode]

/-- A next state of `exec` is a completed instruction, or the state before with a fault latched and nothing else changed. -/
theorem exec_next_cases {i : Instr} {s t : State} (h : exec i s = .next t) :
    Completes i s t ∨ ∃ e, t = { s with faultCause := trapCode e, faultInfo := trapInfo e } := by
  rcases exec_completes_or_raises i s with ⟨u, hu, hc⟩ | ⟨e, he⟩
  · obtain rfl : u = t := by simpa [hu] using h
    exact .inl hc
  · exact .inr ⟨e, by simpa [he, raise, eq_comm] using h⟩

theorem completes_running {i : Instr} {s t : State} (h : Completes i s t) (hs : running s) : running t := by
  obtain ⟨-, -, -, -, -, -, -, -, -, -, -, hcause, -⟩ := h.frame
  exact hcause.trans hs

end Sys2Proof.Safety

/-! PROOFS. What one step can do, said once: the actions of R24, each with the state it leads to. -/

namespace Sys2Proof.Safety

open Sys2Proof.Machine

/-- The next state of a step that does not stop, by the action taken (R24). -/
inductive StepTo (s : State) : State → Prop
  | fetchFault (hdue : cycleDue s) (hrun : running s) (hpc : 0xFFF ≤ s.pc.toNat) :
      StepTo s { s with agenda := s.agenda.tail, fresh := false, faultCause := 1, faultInfo := s.pc }
  | runs {t : State} (w : Word) (hdue : cycleDue s) (hrun : running s) (hw : s.fetch = some w)
      (ht : exec (decodeWord w) s.scheduled.begun = .next t) : StepTo s t
  | setKeys (k16 : BitVec 16) (rest : List Action) (ha : s.agenda = .setKeys k16 :: rest) :
      StepTo s (hostSetKeys k16 { s with agenda := rest })
  | tick (rest : List Action) (ha : s.agenda = .tick :: rest) : StepTo s (hostTick { s with agenda := rest })
  | load (bytes : List Byte) (rest : List Action) (ha : s.agenda = .load bytes :: rest) (hfresh : s.fresh = true)
      (hlen : bytes.length ≤ maxProgram) : StepTo s (State.putBytes { s with agenda := rest } progBase bytes)
  | reset (rest : List Action) (ha : s.agenda = .reset :: rest) : StepTo s (hostReset { s with agenda := rest })

/-- R195: a `Load` that has a next state copies its bytes, in the window before the first `Cycle`. -/
theorem hostLoad_eq_next {bytes : List Byte} {s t : State} (h : hostLoad bytes s = .next t) :
    s.fresh = true ∧ bytes.length ≤ maxProgram ∧ t = s.putBytes progBase bytes := by
  unfold hostLoad at h
  split at h
  · cases h
  next hf =>
  split at h
  · cases h
  next hl =>
  injection h with e
  exact ⟨by simpa using hf, by omega, e.symm⟩

theorem stepTo_of_cycleDue {s t : State} (hdue : cycleDue s) (h : step s = .next t) : StepTo s t := by
  rcases step_cycle hdue with ⟨-, e⟩ | ⟨hrun, hf, e⟩ | ⟨hrun, w, hw, e⟩ <;> rw [e] at h
  · cases h
  · cases h
    exact .fetchFault hdue hrun (State.fetch_eq_none hf)
  · exact .runs w hdue hrun hw h

theorem stepTo_of_step {s t : State} (h : step s = .next t) : StepTo s t := by
  cases ha : s.agenda with
  | nil => exact stepTo_of_cycleDue (.inl ha) h
  | cons a rest =>
    have hact := (step_of_cons ha).symm.trans h
    cases a with
    | cycle => exact stepTo_of_cycleDue (.inr ⟨rest, ha⟩) h
    | setKeys k16 => cases hact; exact .setKeys k16 rest ha
    | tick => cases hact; exact .tick rest ha
    | reset => cases hact; exact .reset rest ha
    | load bytes =>
      obtain ⟨hfresh, hlen, rfl⟩ := hostLoad_eq_next hact
      exact .load bytes rest ha hfresh hlen

end Sys2Proof.Safety

/-! PROOFS. Only the instructions 10_state.md section 1 names write each part of the state. -/

namespace Sys2Proof.Safety

open Sys2Proof.Machine

/-- The column "written by" of 10_state.md section 1, by the row numbers of R66: off those rows a footprint leaves the part
out. -/
theorem footprint_off_row (s : State) (i : Instr) :
    (i.row ∉ [20, 30, 31, 33] → (footprint s i).i = false) ∧ (i.row ≠ 4 → (footprint s i).entries = []) ∧
    (i.row ∉ [2, 4] → (footprint s i).sp = false) ∧ (i.row ≠ 28 → (footprint s i).dt = false) ∧
    (i.row ≠ 29 → (footprint s i).st = false) ∧ (i.row ∉ [1, 23] → (footprint s i).disp = false) ∧
    (i.row ≠ 22 → (footprint s i).draw = false) := by
  cases i <;> simp [footprint, Instr.row]

/-- Settles O45: a fault writes the fault register only, and a completed instruction stays in its footprint. -/
theorem onlyTheNamedInstructionsWrite : Obligations.OnlyTheNamedInstructionsWrite := by
  intro i s t h
  rcases exec_next_cases h with hc | ⟨e, rfl⟩
  · obtain ⟨fi, fentries, fsp, fdt, fst, fdisp, fdraw⟩ := footprint_off_row s i
    obtain ⟨-, -, kstack, ki, ksp, kdt, kst, kdisp, kdraw, kcfg, kkeys, -, -, kfresh, kagenda⟩ := hc.frame
    have kstack' (hr : i.row ≠ 4) : t.stack = s.stack := Vector.ext fun k hk => kstack k hk (by simp [fentries hr])
    have kdraw' (hr : i.row ≠ 22) : ¬(t.draws ≠ s.draws ∨ t.rndIn ≠ s.rndIn) := by simp [kdraw (fdraw hr)]
    exact ⟨not_imp_comm.mp (ki ∘ fi), not_imp_comm.mp kstack', not_imp_comm.mp (ksp ∘ fsp), not_imp_comm.mp (kdt ∘ fdt),
      not_imp_comm.mp (kst ∘ fst), not_imp_comm.mp hc.mem, not_imp_comm.mp (kdisp ∘ fdisp), not_imp_not.mp kdraw',
      kkeys, kcfg, kfresh, kagenda⟩
  · simp

end Sys2Proof.Safety

/-! PROOFS. `pc` and the stack stay in bounds (R13, R80, R83). -/

namespace Sys2Proof.Safety

open Sys2Proof.Machine

/-- R14: from a fetched instruction no rule but that of `RET` leads above 0xFFF + 0xFF. -/
theorem pcRule_le {i : Instr} {s : State} {p : Nat} (hi : i.row ≠ 2) (hpc : s.pc.toNat ≤ 0xFFE) (h : pcRule s p i) :
    p ≤ 0x10FE := by
  have jump (nnn : Addr) : nnn.toNat ≤ 0xFFF := by omega
  have skip {c : Prop} (hs : skipPc s c p) : p ≤ 0x10FE := by
    by_cases hc : c
    · have := hs.1 hc
      omega
    · have := hs.2 hc
      omega
  cases i with
  | ret => exact absurd rfl hi
  | jp nnn | call nnn =>
    have := jump nnn
    have : p = nnn.toNat := h
    omega
  | jpV0 nnn =>
    have := jump nnn
    have : p = nnn.toNat + (s.reg 0).toNat := h
    omega
  | seImm | sneImm | seReg | sneReg | skp | sknp => exact skip h
  | ldVxK x =>
    by_cases hk : s.keys = 0
    · have := h.1 hk
      omega
    · have := h.2 hk
      omega
  | _ =>
    have : p = (s.pc.toNat + 2) % 65536 := h
    omega

theorem controlInBounds_of_same_stack {s t : State} (h : controlInBounds s) (hpc : t.pc.toNat ≤ 0x10FE)
    (hstack : t.stack = s.stack) (hsp : t.sp = s.sp) : controlInBounds t := by
  refine ⟨hpc, ?_⟩
  rw [hstack, hsp]
  exact h.2

/-- R81: the address a `CALL` pushes is its own, at most 0xFFE where it was fetched. -/
theorem call_keeps_controlInBounds {s t : State} {nnn : Addr} (h : controlInBounds s) (hfetch : s.pc.toNat ≤ 0xFFE)
    (e : exec (.call nnn) s = .next t) : controlInBounds t := by
  obtain ⟨hpc, hstack⟩ := h
  rcases exec_call s nnn with ⟨hroom, e'⟩ | ⟨-, e'⟩ <;> cases e'.symm.trans e
  · refine ⟨?_, fun k hk hused => ?_⟩
    · show (addrOperand nnn).toNat ≤ 0x10FE
      rw [addrOperand_toNat]
      omega
    · show ((s.stack.set s.sp.val s.pc hroom)[k]).toNat ≤ 0xFFE
      have hused : k < s.sp.val + 1 := hused
      rw [Vector.getElem_set]
      split
      · exact hfetch
      · exact hstack k hk (by omega)
  · exact ⟨hpc, hstack⟩

/-- R80: `RET` resumes 2 after an address at most 0xFFE, and only takes the entry out of use. -/
theorem ret_keeps_controlInBounds {s t : State} (h : controlInBounds s) (e : exec .ret s = .next t) :
    controlInBounds t := by
  obtain ⟨hpc, hstack⟩ := h
  rcases exec_ret s with ⟨hpos, hlt, e'⟩ | ⟨-, e'⟩ <;> cases e'.symm.trans e
  · refine ⟨?_, fun k hk hused => hstack k hk ?_⟩
    · show (s.stack[s.sp.val - 1] + 2).toNat ≤ 0x10FE
      have := hstack (s.sp.val - 1) hlt (by omega)
      rw [BitVec.toNat_add, show (2 : Word).toNat = 2 from rfl]
      omega
    · have hused : k < s.sp.val - 1 := hused
      omega
  · exact ⟨hpc, hstack⟩

/-- An instruction run from where it was fetched keeps `pc` and the stack in bounds. -/
theorem exec_keeps_controlInBounds {i : Instr} {s t : State} (h : controlInBounds s) (hfetch : s.pc.toNat ≤ 0xFFE)
    (e : exec i s = .next t) : controlInBounds t := by
  by_cases hstack : i.row ∈ [2, 4]
  · cases i with
    | ret => exact ret_keeps_controlInBounds h e
    | call nnn => exact call_keeps_controlInBounds h hfetch e
    | _ => simp [Instr.row] at hstack
  · obtain ⟨hret, hcall⟩ : i.row ≠ 2 ∧ i.row ≠ 4 := by simpa using hstack
    obtain ⟨-, kstack, ksp, -⟩ := onlyTheNamedInstructionsWrite i s t e
    refine controlInBounds_of_same_stack h ?_ (not_imp_comm.mp kstack hcall) (not_imp_comm.mp ksp hstack)
    rcases exec_next_cases e with hc | ⟨_, rfl⟩
    · exact pcRule_le hret hfetch hc.pc
    · exact h.1

theorem resetWith_controlInBounds (cfg : Config) : controlInBounds (State.resetWith cfg) :=
  ⟨show 0x200 ≤ 0x10FE by omega, fun k _ h => absurd h (Nat.not_lt_zero k)⟩

/-- Settles O53: only a fetched instruction or `Reset` moves `pc` or the stack, and each keeps them in bounds. -/
theorem stepKeepsControlInBounds : Obligations.StepKeepsControlInBounds := by
  intro s t h hstep
  cases stepTo_of_step hstep with
  | fetchFault | setKeys | tick => exact h
  | runs w _ _ hw ht => exact exec_keeps_controlInBounds (s := s.scheduled.begun) h (State.fetch_eq_some hw).1 ht
  | load bytes => exact controlInBounds_of_same_stack h (by simpa using h.1) (by simp) (by simp)
  | reset => exact resetWith_controlInBounds s.cfg

/-- Settles O54: nothing is listed in memory, latched, or in use on the stack after reset. -/
theorem resetMeetsTheInvariants : Obligations.ResetMeetsTheInvariants :=
  ⟨⟨State.resetWith_wf _, show (0 : BitVec 3) ≠ 7 by decide, fun _ => rfl⟩, resetWith_controlInBounds _⟩

end Sys2Proof.Safety

/-! PROOFS. `pc` after an instruction (R14), and what may change `VF` (R11, R18). -/

namespace Sys2Proof.Safety

open Sys2Proof.Machine

theorem raised_not_running (e : Trap) (s : State) :
    ¬running { s with faultCause := trapCode e, faultInfo := trapInfo e } := trapCode_ne_zero e

/-- Settles O42: a completed instruction follows its rule, and a fault keeps `pc`. -/
theorem pcAfterEachInstruction : Obligations.PcAfterEachInstruction := by
  intro i s t hs h
  rcases exec_next_cases h with hc | ⟨e, rfl⟩
  · exact ⟨fun _ => hc.pc, fun ht => absurd (completes_running hc hs) ht⟩
  · exact ⟨fun ht => absurd ht (raised_not_running e s), fun _ => rfl⟩

/-- Besides the flag writers only an instruction that names `VF` as its destination has it in its footprint; Fx65 reaches
`V[14]` at most. -/
theorem vf_mem_footprint {s : State} {i : Instr} (hi : i.row ∉ flagRows) (h : vf ∈ (footprint s i).regs) :
    (∃ kk, i = .ldImm 15 kk ∨ i = .addImm 15 kk ∨ i = .rnd 15 kk) ∨
      (∃ y, i = .ldReg 15 y ∨ i = .orReg 15 y ∨ i = .andReg 15 y ∨ i = .xorReg 15 y) ∨ i = .ldVxDT 15 ∨ i = .ldVxK 15 := by
  cases i with
  | ldVxMem x =>
    obtain ⟨k, hk, e⟩ := List.mem_map.mp h
    have hk := List.mem_range.mp hk
    have e : k % 16 = 15 := congrArg BitVec.toNat e
    omega
  | _ => simp_all [footprint, Instr.row]

/-- Settles O46: the flag writers end with the flag, and `VF` changes only inside a footprint that has it. -/
theorem flagWritersLeaveZeroOrOne : Obligations.FlagWritersLeaveZeroOrOne := by
  intro i s t _ h ht
  rcases exec_next_cases h with hc | ⟨e, rfl⟩
  · exact ⟨hc.flag, fun hi hne => vf_mem_footprint hi (by_contra fun hvf => hne (keeps_reg hc.frame hvf))⟩
  · exact absurd ht (raised_not_running e s)

end Sys2Proof.Safety

/-! PROOFS. The sound timer and the keys are read by the instructions the spec names and no other (R20, R22). -/

namespace Sys2Proof.Safety

open Sys2Proof.Machine

/-- The state with other values at the two ports the host and the engine share: `ST` and the keys. -/
def withPorts (b : Byte) (k16 : BitVec 16) (s : State) : State := { s with st := b, keys := k16 }

section

variable (b : Byte) (k16 : BitVec 16) (s : State)

theorem putBytes_withPorts (a : Nat) (bs : List Byte) :
    (withPorts b k16 s).putBytes a bs = withPorts b k16 (s.putBytes a bs) := by
  induction bs generalizing s a with
  | nil => rfl
  | cons c bs ih => exact ih (s.putByte a c) (a + 1)

theorem setRegs_withPorts (k : Nat) (bs : List Byte) :
    (withPorts b k16 s).setRegs k bs = withPorts b k16 (s.setRegs k bs) := by
  induction bs generalizing s k with
  | nil => rfl
  | cons c bs ih => exact ih (s.setReg (BitVec.ofNat 4 k) c) (k + 1)

theorem afterDraw_withPorts : (withPorts b k16 s).afterDraw = withPorts b k16 s.afterDraw := by
  cases h : s.rndIn <;> simp [State.afterDraw, withPorts, h]

theorem withData_withPorts (n : Nat) {go go' : Result} (h : go' = mapNext (withPorts b k16) go) :
    (withPorts b k16 s).withData n go' = mapNext (withPorts b k16) (s.withData n go) := by
  subst h
  show (match s.dataTrap n with | some t => raise t (withPorts b k16 s) | none => _) = _
  unfold State.withData
  cases s.dataTrap n <;> rfl

theorem keyIndex_withPorts (x : RegNo) : (withPorts b k16 s).keyIndex x = s.keyIndex x := rfl

theorem lowestKey_sameKeys : (withPorts b s.keys s).lowestKey = s.lowestKey := rfl

/-- R20, R22: an instruction other than Fx18 does the same with any value in `ST`, and the same with any keys unless it is
one of the three that read them. -/
theorem exec_withPorts (i : Instr) (hst : ∀ x, i ≠ .ldSTVx x) (hkeys : i.row ∉ [24, 25, 27] ∨ k16 = s.keys) :
    exec i (withPorts b k16 s) = mapNext (withPorts b k16) (exec i s) := by
  have hk (hi : i.row ∈ [24, 25, 27]) : k16 = s.keys := hkeys.resolve_left fun h => h hi
  cases i with
  | ldSTVx x => exact absurd rfl (hst x)
  | skp x =>
    obtain rfl := hk (by simp [Instr.row])
    show execSkp x _ = mapNext _ (execSkp x s)
    rw [execSkp, execSkp, keyIndex_withPorts]
    cases s.keyIndex x <;> rfl
  | sknp x =>
    obtain rfl := hk (by simp [Instr.row])
    show execSknp x _ = mapNext _ (execSknp x s)
    rw [execSknp, execSknp, keyIndex_withPorts]
    cases s.keyIndex x <;> rfl
  | ldVxK x =>
    obtain rfl := hk (by simp [Instr.row])
    show execLdVxK x _ = mapNext _ (execLdVxK x s)
    rw [execLdVxK, execLdVxK, lowestKey_sameKeys]
    cases s.lowestKey <;> rfl
  | ret =>
    show execRet (withPorts b k16 s) = mapNext _ (execRet s)
    by_cases h : 0 < s.sp.val <;> simp [execRet, State.pop, withPorts, mapNext, raise, h]
  | call nnn =>
    show execCall nnn (withPorts b k16 s) = mapNext _ (execCall nnn s)
    by_cases h : s.sp.val < 16 <;> simp [execCall, State.push, withPorts, mapNext, raise, h]
  | rnd x kk =>
    show Host.Outcome.next (((withPorts b k16 s).afterDraw.setReg x (s.rndByte &&& kk)).advance) = _
    rw [afterDraw_withPorts]
    rfl
  | ldB x =>
    refine withData_withPorts b k16 s _ ?_
    rw [putBytes_withPorts]
    rfl
  | ldMemVx x =>
    refine withData_withPorts b k16 s _ ?_
    rw [putBytes_withPorts]
    rfl
  | ldVxMem x =>
    refine withData_withPorts b k16 s _ ?_
    rw [setRegs_withPorts]
    rfl
  | drw x y n =>
    refine withData_withPorts b k16 s _ ?_
    show (match edgeCells s.cfg.drawEdge (s.spriteOf x y n) with | none => _ | some cells => _) = _
    cases edgeCells s.cfg.drawEdge (s.spriteOf x y n) <;> rfl
  | _ => rfl

end

theorem mapNext_congr {f g : State → State} {r : Result} (h : ∀ t, r = .next t → f t = g t) :
    mapNext f r = mapNext g r := by
  cases r with
  | next t => exact congrArg Host.Outcome.next (h t rfl)
  | fault | refused => rfl

/-- Settles O47: with the keys as they were, and no instruction writes them. -/
theorem noInstructionReadsTheSoundTimer : Obligations.NoInstructionReadsTheSoundTimer := by
  intro i s b hst
  refine (exec_withPorts b s.keys s i hst (.inr rfl)).trans (mapNext_congr fun t ht => ?_)
  obtain ⟨-, -, -, -, -, -, -, -, hkeys, -⟩ := onlyTheNamedInstructionsWrite i s t ht
  simp [withPorts, hkeys]

theorem row_eq_ldSTVx {i : Instr} (h : i.row = 29) : ∃ x, i = .ldSTVx x := by
  cases i with
  | ldSTVx x => exact ⟨x, rfl⟩
  | _ => simp [Instr.row] at h

/-- Settles O48: Fx18 by its meaning, and every other instruction leaves `ST` as it was. -/
theorem onlyKeyInstructionsReadTheKeys : Obligations.OnlyKeyInstructionsReadTheKeys := by
  intro i s k16 hi
  by_cases hst : i.row = 29
  · obtain ⟨x, rfl⟩ := row_eq_ldSTVx hst
    rfl
  · have hne (x : RegNo) : i ≠ .ldSTVx x := fun e => hst (e ▸ rfl)
    refine (exec_withPorts s.st k16 s i hne (.inl hi)).trans (mapNext_congr fun t ht => ?_)
    obtain ⟨-, -, -, -, kst, -⟩ := onlyTheNamedInstructionsWrite i s t ht
    simp [withPorts, not_imp_comm.mp kst hst]

end Sys2Proof.Safety

/-! PROOFS. The step, the host's `SetKeys`, and the state after reset. -/

namespace Sys2Proof.Safety

open Sys2Proof.Machine

/-- Settles O5: of what a due `Cycle` can do, only the run of the fetched word is left. -/
theorem stepRunsTheDecodedInstruction : Obligations.StepRunsTheDecodedInstruction := by
  intro s i rest hdue hrun hpc hdec
  have hfetch := State.fetch_some hpc
  obtain rfl : decodeWord (wordOfBytes (s.byteAt s.pc.toNat) (s.byteAt (s.pc.toNat + 1))) = i := by
    injection hdec with e
    exact congrArg Prod.fst e
  rcases step_cycle hdue with ⟨hhalt, -⟩ | ⟨-, hnone, -⟩ | ⟨-, w, hw, e⟩
  · exact absurd hrun hhalt
  · simp [hfetch] at hnone
  · obtain rfl := Option.some.inj (hfetch.symm.trans hw)
    exact e

/-- Settles O7: of what a due `Cycle` can do, only the stop is left. -/
theorem haltedEngineTakesNoCycle : Obligations.HaltedEngineTakesNoCycle := by
  intro s hdue hhalt
  rcases step_cycle hdue with ⟨-, e⟩ | ⟨hrun, -⟩ | ⟨hrun, -⟩
  · exact e
  · exact absurd hrun hhalt
  · exact absurd hrun hhalt

/-- Settles O8: the head of the agenda is taken, and `hostSetKeys` writes the keys alone. -/
theorem setKeysReplacesTheKeys : Obligations.SetKeysReplacesTheKeys := fun _ _ _ ha =>
  ⟨_, step_of_cons ha, fun _ _ => rfl, rfl⟩

theorem unlisted_font {font : Vector Byte 80} {a : Nat} (h : a < 80) : Memory.unlisted font a = font[a] := by
  simp [Memory.unlisted, h]

theorem unlisted_zero {font : Vector Byte 80} {a : Nat} (h : 80 ≤ a) : Memory.unlisted font a = 0 := by
  simp [Memory.unlisted, Nat.not_lt.mpr h]

theorem reg_resetWith (cfg : Config) (r : RegNo) : (State.resetWith cfg).reg r = 0 := by
  simp [State.reg, State.resetWith]

theorem stack_resetWith (cfg : Config) (k : Nat) (h : k < 16) : (State.resetWith cfg).stack[k] = 0 := by
  simp [State.resetWith]

/-- Settles O12: memory reads as its unlisted contents (R29), and every other part is a zero of `resetWith`. -/
theorem resetStateValues : Obligations.ResetStateValues :=
  ⟨rfl, fun _ => unlisted_font, fun _ => unlisted_zero, reg_resetWith _, rfl, rfl, stack_resetWith _, rfl, rfl,
    fun k _ => Display.get_clear k, rfl, rfl, rfl⟩

end Sys2Proof.Safety

/-! PROOFS. Memory stays canonical and the fault register legal (R40, R27); a fetch reads the two bytes at `pc`, a dump's
included (R45, R52). -/

namespace Sys2Proof.Safety

open Sys2Proof.Machine

/-! ### What an instruction stores -/

/-- R147: a dump that fits stores the registers below `x` from `I` up. -/
theorem exec_ldMemVx_fits {s : State} {x : RegNo} (h : dataFits s x.toNat) : exec (.ldMemVx x) s =
    .next { s.putBytes (s.dataAddr 0) (s.regsBelow x.toNat) with i := s.i + x.zeroExtend 16 + 1 }.advance :=
  State.withData_fits _ h

/-- R146: the decimal digits that fit are stored from `I` up. -/
theorem exec_ldB_fits {s : State} {x : RegNo} (h : dataFits s 3) : exec (.ldB x) s =
    .next (s.putBytes (s.dataAddr 0) (decimalDigits (s.reg x))).advance :=
  State.withData_fits _ h

theorem withData_fits_of_mem_ne {s t : State} {n : Nat} {go : Result} (h : s.withData n go = .next t)
    (hne : t.mem ≠ s.mem) : dataFits s n := by
  by_contra hn
  cases (State.withData_beyond go hn).symm.trans h
  exact hne rfl

/-- R43, R44: an instruction leaves memory as it was, or stores bytes that fit from `I` up. -/
theorem exec_mem_cases {i : Instr} {s t : State} (h : exec i s = .next t) :
    t.mem = s.mem ∨ ∃ bs : List Byte, dataFits s bs.length ∧ t.mem = (s.putBytes (s.dataAddr 0) bs).mem := by
  by_cases hne : t.mem = s.mem
  · exact .inl hne
  · obtain ⟨-, -, -, -, -, hrow, -⟩ := onlyTheNamedInstructionsWrite i s t h
    have hrow := hrow hne
    cases i with
    | ldB x =>
      have hfits := withData_fits_of_mem_ne h hne
      cases (exec_ldB_fits hfits).symm.trans h
      exact .inr ⟨decimalDigits (s.reg x), hfits, rfl⟩
    | ldMemVx x =>
      have hfits := withData_fits_of_mem_ne h hne
      cases (exec_ldMemVx_fits hfits).symm.trans h
      exact .inr ⟨s.regsBelow x.toNat, by rwa [State.regsBelow_length], rfl⟩
    | _ => simp [Instr.row] at hrow

/-! ### Canonical memory and the fault register -/

/-- Bytes that fit from `I` up reach no address above 0xFFF; an empty list reaches none wherever `I` points. -/
theorem wf_putBytes_of_dataFits {s : State} {bs : List Byte} (hfits : dataFits s bs.length) (h : s.mem.wf s.cfg.font) :
    (s.putBytes (s.dataAddr 0) bs).mem.wf s.cfg.font := by
  cases bs with
  | nil => exact h
  | cons b bs =>
    refine State.wf_putBytes _ ?_ h
    simp only [dataFits, List.length_cons, State.dataAddr, memSize] at hfits ⊢
    omega

theorem exec_keeps_wf {i : Instr} {s t : State} (e : exec i s = .next t) (h : s.mem.wf s.cfg.font) :
    t.mem.wf s.cfg.font := by
  rcases exec_mem_cases e with hm | ⟨bs, hfits, hm⟩ <;> rw [hm]
  · exact h
  · exact wf_putBytes_of_dataFits hfits h

theorem trapCode_ne_seven (e : Trap) : trapCode e ≠ 7 := by cases e <;> simp [trapCode]

/-- A latched fault is legal: its code is neither 0 nor 7. -/
theorem raised_keeps_memoryAndLatch {s : State} (e : Trap) (h : memoryAndLatch s) :
    memoryAndLatch { s with faultCause := trapCode e, faultInfo := trapInfo e } :=
  ⟨h.1, trapCode_ne_seven e, fun h0 => absurd h0 (trapCode_ne_zero e)⟩

theorem exec_keeps_memoryAndLatch {i : Instr} {s t : State} (h : memoryAndLatch s) (e : exec i s = .next t) :
    memoryAndLatch t := by
  rcases exec_next_cases e with hc | ⟨f, rfl⟩
  · obtain ⟨-, -, -, -, -, -, -, -, -, hcfg, -, hcause, hinfo, -⟩ := hc.frame
    have hwf := exec_keeps_wf e h.1
    rw [memoryAndLatch, hcfg, hcause, hinfo]
    exact ⟨hwf, h.2⟩
  · exact raised_keeps_memoryAndLatch f h

/-- R195: a `Load` that has a meaning stays below 0x1000. -/
theorem load_keeps_memoryAndLatch {s : State} {bytes : List Byte} (h : memoryAndLatch s)
    (hlen : bytes.length ≤ maxProgram) : memoryAndLatch (s.putBytes progBase bytes) := by
  have hroom : progBase + bytes.length ≤ memSize := Nat.add_le_add_left hlen progBase
  rw [memoryAndLatch, State.putBytes_cfg, State.putBytes_faultCause, State.putBytes_faultInfo]
  exact ⟨State.wf_putBytes bytes hroom h.1, h.2⟩

theorem resetWith_memoryAndLatch (cfg : Config) : memoryAndLatch (State.resetWith cfg) :=
  ⟨State.resetWith_wf cfg, show (0 : BitVec 3) ≠ 7 by decide, fun _ => rfl⟩

/-- Settles O52: by the action taken; only an instruction's stores and a `Load` reach memory, and each fits. -/
theorem stepKeepsMemoryAndLatch : Obligations.StepKeepsMemoryAndLatch := by
  intro s t h hstep
  cases stepTo_of_step hstep with
  | fetchFault => exact raised_keeps_memoryAndLatch (s := s.scheduled.begun) (.fetchOutOfRange s.pc) h
  | runs w _ _ _ ht => exact exec_keeps_memoryAndLatch (s := s.scheduled.begun) h ht
  | setKeys | tick => exact h
  | load bytes rest _ _ hlen => exact load_keeps_memoryAndLatch (s := { s with agenda := rest }) h hlen
  | reset => exact resetWith_memoryAndLatch s.cfg

/-! ### Fetch -/

/-- R147: after a dump the byte at `I + r` is register `r`, for every register below the count. -/
theorem byteAt_of_dump {s t : State} {x r : RegNo} (hfits : dataFits s x.toNat) (h : exec (.ldMemVx x) s = .next t)
    (hr : r.toNat < x.toNat) : t.byteAt (s.i.toNat + r.toNat) = s.reg r := by
  cases (exec_ldMemVx_fits hfits).symm.trans h
  have hlen : r.toNat < (s.regsBelow x.toNat).length := by rwa [State.regsBelow_length]
  refine (State.byteAt_putBytes_inside s (s.dataAddr 0) r.toNat _ hlen).trans ?_
  rw [State.regsBelow_getElem, BitVec.ofNat_toNat, BitVec.setWidth_eq]

theorem byteAt_congr {s t : State} (hmem : t.mem = s.mem) (hcfg : t.cfg = s.cfg) (a : Nat) : t.byteAt a = s.byteAt a := by
  rw [State.byteAt, State.byteAt, hmem, hcfg]

/-- Settles O39: the two bytes of the fetch are the two dumped registers. -/
theorem storedBytesAreFetched : Obligations.StoredBytesAreFetched := by
  intro s t u x r q hfits h hrq hq hmem hcfg hpc
  have hle : u.pc.toNat ≤ 0xFFE := by
    rcases hfits with h0 | h0 <;> omega
  have hhi : u.byteAt u.pc.toNat = s.reg r := by
    rw [byteAt_congr hmem hcfg, hpc]
    exact byteAt_of_dump hfits h (by omega)
  have hlo : u.byteAt (u.pc.toNat + 1) = s.reg q := by
    rw [byteAt_congr hmem hcfg, hpc, Nat.add_assoc, hrq]
    exact byteAt_of_dump hfits h hq
  rw [State.fetch_some hle, hhi, hlo, wordOfBytes]

/-- Settles O6: below 0xFFF by the step's run of the decoded word, from 0xFFF up the fetch is all that is left. -/
theorem fetchIsBigEndianAndChecked : Obligations.FetchIsBigEndianAndChecked := by
  refine fun s hdue hrun => ⟨fun hpc => ?_, fun hpc => ?_⟩
  · exact ⟨wordOfBytes (s.byteAt s.pc.toNat) (s.byteAt (s.pc.toNat + 1)), extract_high _ _, extract_low _ _,
      stepRunsTheDecodedInstruction s _ [] hdue hrun hpc rfl⟩
  · rcases step_cycle hdue with ⟨hhalt, -⟩ | ⟨-, -, e⟩ | ⟨-, w, hw, -⟩
    · exact absurd hrun hhalt
    · exact e
    · simp [State.fetch_none hpc] at hw

end Sys2Proof.Safety

/-! PROOFS. The decoder is the opcode map, and encoding and decoding are inverse (R60 to R67). -/

namespace Sys2Proof

/-! ### Decoding loses no bit of a word -/

section

variable {w : Word} {op : BitVec 4}

theorem encodeA_of_fields (h : fieldOp w = op) : encodeA op (fieldNNN w) = w := by
  rw [← h, encodeA_fields]

theorem encodeI_of_fields (h : fieldOp w = op) : encodeI op (fieldX w) (fieldKK w) = w := by
  rw [← h, encodeI_fields]

theorem encodeR_of_fields {m : BitVec 4} (h : fieldOp w = op) (hm : fieldN w = m) :
    encodeR op (fieldX w) (fieldY w) m = w := by
  rw [← h, ← hm, encodeR_fields]

theorem encodeX_of_fields {fn : Byte} (h : fieldOp w = op) (hfn : fieldKK w = fn) : encodeX op (fieldX w) fn = w := by
  rw [← h, ← hfn, encodeX_fields]

theorem encode_decodeFamily0 (w : Word) : encode (decodeFamily0 w) = w := by
  unfold decodeFamily0
  split_ifs <;> simp [encode, *]

theorem encode_decodeFamily5 (h : fieldOp w = 5) : encode (decodeFamily5 w) = w := by
  unfold decodeFamily5
  split_ifs <;> simp [encode, encodeR_of_fields, *]

theorem encode_decodeFamily8 (h : fieldOp w = 8) : encode (decodeFamily8 w) = w := by
  unfold decodeFamily8
  split_ifs <;> simp [encode, encodeR_of_fields, *]

theorem encode_decodeFamily9 (h : fieldOp w = 9) : encode (decodeFamily9 w) = w := by
  unfold decodeFamily9
  split_ifs <;> simp [encode, encodeR_of_fields, *]

theorem encode_decodeFamilyE (h : fieldOp w = 14) : encode (decodeFamilyE w) = w := by
  unfold decodeFamilyE
  split_ifs <;> simp [encode, encodeX_of_fields, *]

theorem encode_decodeFamilyF (h : fieldOp w = 15) : encode (decodeFamilyF w) = w := by
  unfold decodeFamilyF
  split_ifs <;> simp [encode, encodeX_of_fields, *]

end

/-- R64: family by family, the operands and the tested bits together are the whole word. -/
@[simp] theorem encode_decodeWord (w : Word) : encode (decodeWord w) = w := by
  rcases op_cases (fieldOp w) with h | h | h | h | h | h | h | h | h | h | h | h | h | h | h | h
  · rw [decodeWord_op0 h, encode_decodeFamily0]
  · rw [decodeWord_op1 h, encode, encodeA_of_fields h]
  · rw [decodeWord_op2 h, encode, encodeA_of_fields h]
  · rw [decodeWord_op3 h, encode, encodeI_of_fields h]
  · rw [decodeWord_op4 h, encode, encodeI_of_fields h]
  · rw [decodeWord_op5 h, encode_decodeFamily5 h]
  · rw [decodeWord_op6 h, encode, encodeI_of_fields h]
  · rw [decodeWord_op7 h, encode, encodeI_of_fields h]
  · rw [decodeWord_op8 h, encode_decodeFamily8 h]
  · rw [decodeWord_op9 h, encode_decodeFamily9 h]
  · rw [decodeWord_opA h, encode, encodeA_of_fields h]
  · rw [decodeWord_opB h, encode, encodeA_of_fields h]
  · rw [decodeWord_opC h, encode, encodeI_of_fields h]
  · rw [decodeWord_opD h, encode, encodeR_of_fields h rfl]
  · rw [decodeWord_opE h, encode_decodeFamilyE h]
  · rw [decodeWord_opF h, encode_decodeFamilyF h]

theorem eq_of_decodeWord_nop {w v : Word} (h : decodeWord w = .nop v) : v = w := by
  rw [← encode_decodeWord w, h, encode]

/-! ### A word that matches a row decodes to that row -/

/-- A match fixes every field that lies under the mask. -/
theorem extract_eq_of_match {w mask pattern : Word} {k n : Nat} (h : w &&& mask = pattern)
    (hmask : mask.extractLsb' k n = BitVec.allOnes n) : w.extractLsb' k n = pattern.extractLsb' k n := by
  rw [← h, BitVec.extractLsb'_and, hmask, BitVec.and_allOnes]

/-- R64: the row a word decodes to is settled by `op` and by the bits its family tests. -/
theorem decodeWord_row_congr {w p : Word} (hop : fieldOp w = fieldOp p) (h0 : fieldOp p = 0 → w = p)
    (hm : fieldOp p ∈ [5#4, 8, 9] → fieldN w = fieldN p) (hfn : fieldOp p ∈ [14#4, 15] → fieldKK w = fieldKK p) :
    (decodeWord w).row = (decodeWord p).row := by
  rcases op_cases (fieldOp p) with h | h | h | h | h | h | h | h | h | h | h | h | h | h | h | h <;> rw [h] at hop hm hfn
  · rw [h0 h]
  · rw [decodeWord_op1 hop, decodeWord_op1 h]; rfl
  · rw [decodeWord_op2 hop, decodeWord_op2 h]; rfl
  · rw [decodeWord_op3 hop, decodeWord_op3 h]; rfl
  · rw [decodeWord_op4 hop, decodeWord_op4 h]; rfl
  · rw [decodeWord_op5 hop, decodeWord_op5 h, decodeFamily5, decodeFamily5, hm (by decide)]
    simp only [apply_ite Instr.row]
    rfl
  · rw [decodeWord_op6 hop, decodeWord_op6 h]; rfl
  · rw [decodeWord_op7 hop, decodeWord_op7 h]; rfl
  · rw [decodeWord_op8 hop, decodeWord_op8 h, decodeFamily8, decodeFamily8, hm (by decide)]
    simp only [apply_ite Instr.row]
    rfl
  · rw [decodeWord_op9 hop, decodeWord_op9 h, decodeFamily9, decodeFamily9, hm (by decide)]
    simp only [apply_ite Instr.row]
    rfl
  · rw [decodeWord_opA hop, decodeWord_opA h]; rfl
  · rw [decodeWord_opB hop, decodeWord_opB h]; rfl
  · rw [decodeWord_opC hop, decodeWord_opC h]; rfl
  · rw [decodeWord_opD hop, decodeWord_opD h]; rfl
  · rw [decodeWord_opE hop, decodeWord_opE h, decodeFamilyE, decodeFamilyE, hfn (by decide)]
    simp only [apply_ite Instr.row]
    rfl
  · rw [decodeWord_opF hop, decodeWord_opF h, decodeFamilyF, decodeFamilyF, hfn (by decide)]
    simp only [apply_ite Instr.row]
    rfl

/-- R66: the pattern of each row decodes to the row, and its mask covers what the pattern's family tests. -/
theorem opcodeRows_cover_tests : ∀ r ∈ opcodeRows, (decodeWord r.pattern).row = r.number ∧
    r.mask.extractLsb' 12 4 = BitVec.allOnes 4 ∧ (fieldOp r.pattern = 0 → r.mask.extractLsb' 0 16 = BitVec.allOnes 16) ∧
    (fieldOp r.pattern ∈ [5#4, 8, 9] → r.mask.extractLsb' 0 4 = BitVec.allOnes 4) ∧
    (fieldOp r.pattern ∈ [14#4, 15] → r.mask.extractLsb' 0 8 = BitVec.allOnes 8) := by decide

theorem decodeWord_row_of_match {w : Word} {r : OpcodeRow} (hr : r ∈ opcodeRows) (h : w &&& r.mask = r.pattern) :
    (decodeWord w).row = r.number := by
  obtain ⟨hrow, hop, h0, hm, hfn⟩ := opcodeRows_cover_tests r hr
  have whole (e : fieldOp r.pattern = 0) : w = r.pattern := by simpa using extract_eq_of_match h (h0 e)
  exact hrow ▸ decodeWord_row_congr (extract_eq_of_match h hop) whole (fun e => extract_eq_of_match h (hm e))
    (fun e => extract_eq_of_match h (hfn e))

/-! ### The no-operation (R67, R155) -/

theorem unrecognised_iff (w : Word) : unrecognised w = true ↔ ∀ r ∈ opcodeRows, w &&& r.mask ≠ r.pattern := by
  simp [unrecognised, OpcodeRow.hits]

theorem number_ne_of_mem : ∀ r ∈ opcodeRows, r.number ≠ 35 := by decide

theorem wf_iff (i : Instr) : i.wf = true ↔ ∀ w, i = .nop w → unrecognised w = true := by
  cases i <;> simp [Instr.wf]

theorem exists_row_of_lt : ∀ n < 34, ∃ r ∈ opcodeRows, r.number = n + 1 := by decide

theorem nop_or_row_mem (i : Instr) : (∃ w, i = .nop w) ∨ ∃ r ∈ opcodeRows, r.number = i.row := by
  cases i with
  | nop w => exact .inl ⟨w, rfl⟩
  | _ => exact .inr (exists_row_of_lt _ (by simp))

/-- A word decodes to a no-operation only when no row matches it. -/
theorem wf_decodeWord (w : Word) : (decodeWord w).wf = true := by
  refine (wf_iff _).mpr fun v hv => (unrecognised_iff v).mpr fun r hr hmatch => number_ne_of_mem r hr ?_
  obtain rfl := eq_of_decodeWord_nop hv
  rw [← decodeWord_row_of_match hr hmatch, hv, Instr.row]

/-! ### The word of an instruction matches the instruction's row -/

open Laws.EncodeMatchesRow in
theorem encodeMatchesRow (i : Instr) : Statement i :=
  i.casesOn cls ret jp call seImm sneImm seReg ldImm addImm ldReg orReg andReg xorReg addReg subReg shr subn shl sneReg ldI
    jpV0 rnd drw skp sknp ldVxDT ldVxK ldDTVx ldSTVx addI ldF ldB ldMemVx ldVxMem nop

theorem match_of_decodeWord_row {w : Word} {r : OpcodeRow} (hr : r ∈ opcodeRows) (h : (decodeWord w).row = r.number) :
    w &&& r.mask = r.pattern := by
  have hit := (encodeMatchesRow _ (wf_decodeWord w)).1 r hr h.symm
  rwa [encode_decodeWord, OpcodeRow.hits, beq_iff_eq] at hit

theorem decodeWord_of_unrecognised {w : Word} (h : unrecognised w = true) : decodeWord w = .nop w := by
  rcases nop_or_row_mem (decodeWord w) with ⟨v, hv⟩ | ⟨r, hr, hrow⟩
  · rw [hv, eq_of_decodeWord_nop hv]
  · exact absurd (match_of_decodeWord_row hr hrow.symm) ((unrecognised_iff w).mp h r hr)

/-! ### The obligations -/

/-- R62: the families test the bits the formats fix, and read the operands from where the formats put them. -/
theorem decodeWord_encode {i : Instr} (h : i.wf = true) : decodeWord (encode i) = i := by
  cases i with
  | cls | ret => rfl
  | nop w => exact decodeWord_of_unrecognised h
  | jp => simp [encode, decodeWord_op1]
  | call => simp [encode, decodeWord_op2]
  | seImm => simp [encode, decodeWord_op3]
  | sneImm => simp [encode, decodeWord_op4]
  | ldImm => simp [encode, decodeWord_op6]
  | addImm => simp [encode, decodeWord_op7]
  | ldI => simp [encode, decodeWord_opA]
  | jpV0 => simp [encode, decodeWord_opB]
  | rnd => simp [encode, decodeWord_opC]
  | drw => simp [encode, decodeWord_opD]
  | seReg => simp [encode, decodeWord_op5, decodeFamily5]
  | sneReg => simp [encode, decodeWord_op9, decodeFamily9]
  | ldReg | orReg | andReg | xorReg | addReg | subReg | shr | subn | shl =>
    simp [encode, decodeWord_op8, decodeFamily8]
  | skp | sknp => simp [encode, decodeWord_opE, decodeFamilyE]
  | ldVxDT | ldVxK | ldDTVx | ldSTVx | addI | ldF | ldB | ldMemVx | ldVxMem =>
    simp [encode, decodeWord_opF, decodeFamilyF]

/-- Settles O1: the two bytes are put together to the encoded word, which decodes to the instruction. -/
theorem decodeEncodeAgree : Obligations.DecodeEncodeAgree := by
  intro i rest h
  show Except.ok (decodeWord (wordOfBytes _ _), rest) = _
  rw [wordOfBytes_bytesOfWord, decodeWord_encode h]

/-- Settles O2: the instruction is that of the word the two bytes make. -/
theorem encodeDecodeAgree : Obligations.EncodeDecodeAgree := by
  refine fun hi lo rest => ⟨decodeWord (wordOfBytes hi lo), rfl, wf_decodeWord _, ?_⟩
  rw [encodeBytes, encode_decodeWord, bytesOfWord_wordOfBytes]

theorem opcodeRows_eq_of_number {r q : OpcodeRow} (hr : r ∈ opcodeRows) (hq : q ∈ opcodeRows)
    (h : r.number = q.number) : r = q :=
  List.inj_on_of_nodup_map (f := OpcodeRow.number) (by decide) hr hq h

/-- Settles O3: two rows that match one word both have the number of the row it decodes to, and no two rows share one. -/
theorem decoderFollowsTheOpcodeMap : Obligations.DecoderFollowsTheOpcodeMap := by
  refine fun w => ⟨fun r hr => ⟨decodeWord_row_of_match hr, match_of_decodeWord_row hr⟩, fun r hr q hq hmr hmq => ?_, ?_⟩
  · exact opcodeRows_eq_of_number hr hq ((decodeWord_row_of_match hr hmr).symm.trans (decodeWord_row_of_match hq hmq))
  · rw [← unrecognised_iff]
    exact ⟨decodeWord_of_unrecognised, (wf_iff _).mp (wf_decodeWord w) w⟩

end Sys2Proof

/-! PROOFS. No instruction stops the machine, and no action changes the parameters (R67, R69, R161). -/

namespace Sys2Proof.Safety

open Sys2Proof.Machine

/-- Settles O41: a completed instruction has a next state, and so has one that raises a fault. -/
theorem everyInstructionHasANextState : Obligations.EveryInstructionHasANextState := by
  intro i s
  rcases exec_completes_or_raises i s with ⟨t, ht, -⟩ | ⟨e, he⟩
  · exact ⟨t, ht⟩
  · exact ⟨_, he⟩

theorem exec_cfg {i : Instr} {s t : State} (h : exec i s = .next t) : t.cfg = s.cfg := by
  obtain ⟨-, -, -, -, -, -, -, -, -, hcfg, -⟩ := onlyTheNamedInstructionsWrite i s t h
  exact hcfg

/-- Settles O50: by the action taken; no instruction writes the parameters, and `Reset` puts them back. -/
theorem parametersNeverChange : Obligations.ParametersNeverChange := by
  intro s t h
  cases stepTo_of_step h with
  | fetchFault | setKeys | tick | reset => rfl
  | runs w _ _ _ ht => exact exec_cfg (s := s.scheduled.begun) ht
  | load bytes => exact State.putBytes_cfg _ _ _

end Sys2Proof.Safety

/-! PROOFS. Control transfer: jumps, calls and returns (spec/40_control_transfer.md). -/

namespace Sys2Proof.Safety

open Sys2Proof.Machine

/-- R83: the sum of a 12-bit address and a byte stays below 65536, so no bit of it is lost. -/
theorem addrOperand_add_byteOperand_toNat (nnn : Addr) (b : Byte) :
    (addrOperand nnn + byteOperand b).toNat = nnn.toNat + b.toNat := by
  rw [BitVec.toNat_add, addrOperand_toNat, byteOperand_toNat]
  omega

/-- Settles O13: the word decodes as the encoding of `JP nnn`, whose meaning writes the widened address to `pc`. -/
theorem jumpSetsThePc : Obligations.JumpSetsThePc :=
  fun s nnn => ⟨decodeWord_encode (i := .jp nnn) rfl, _, rfl, addrOperand_toNat nnn, keeps_pc _ s _⟩

/-- Settles O14: the target is a sum that does not wrap. -/
theorem jumpV0AddsV0 : Obligations.JumpV0AddsV0 :=
  fun s nnn => ⟨_, rfl, addrOperand_add_byteOperand_toNat nnn (s.reg 0), keeps_pc _ s _⟩

/-- Settles O15: the two outcomes of `CALL` are told apart by whether an entry is free. -/
theorem callPushesItsOwnAddress : Obligations.CallPushesItsOwnAddress := by
  intro s nnn
  rcases exec_call s nnn with ⟨hroom, hnext⟩ | ⟨hfull, hfault⟩
  · exact ⟨fun _ => ⟨_, hnext, by simp, rfl, addrOperand_toNat nnn, keeps_pushed s _ _ _ hroom⟩, fun hfull => by omega⟩
  · exact ⟨fun hroom => by omega, fun _ => hfault⟩

/-- Settles O16: the two outcomes of `RET` are told apart by whether an entry is in use. -/
theorem returnResumesAfterTheCall : Obligations.ReturnResumesAfterTheCall := by
  intro s
  rcases exec_ret s with ⟨hpos, hlt, hnext⟩ | ⟨hempty, hfault⟩
  · exact ⟨fun _ _ => ⟨_, hnext, BitVec.toNat_add _ _, rfl, keeps_popped s _ _⟩, fun hempty => by omega⟩
  · exact ⟨fun hpos _ => by omega, fun _ => hfault⟩

/-- Settles O17: `RET` reads the entry `CALL` wrote, since the stack pointer it finds is one more than before the call. -/
theorem callThenReturn : Obligations.CallThenReturn := by
  intro s nnn hroom
  obtain ⟨t, hcall, hentry, hcount, -⟩ := (callPushesItsOwnAddress s nnn).1 hroom
  refine ⟨t, hcall, fun u hstack hsp => ?_⟩
  have hcount' : u.sp.val = s.sp.val + 1 := by rw [hsp, hcount]
  obtain ⟨w, hret, hpc, hdepth, -⟩ := (returnResumesAfterTheCall u).1 (by omega) (by omega)
  refine ⟨w, hret, BitVec.eq_of_toNat_eq ?_, Fin.ext (by omega)⟩
  rw [hpc, BitVec.toNat_add]
  simp [hcount', hstack, hentry]

end Sys2Proof.Safety

/-! PROOFS. Conditional skips (spec/41_skips.md). -/

namespace Sys2Proof.Safety

open Sys2Proof.Machine

/-- R14 b, R96: an instruction that answers with a skip moves `pc` by the skip's rule and changes nothing else. -/
theorem skips_of_exec {i : Instr} {s : State} {c : Bool} {P : Prop} (h : exec i s = .next (s.skipIf c))
    (hc : c = true ↔ P) : ∃ t, exec i s = .next t ∧ skipPc s P t.pc.toNat ∧ ({} : Footprint).keeps s t :=
  ⟨_, h, propext hc ▸ State.skipIf_spec s c, keeps_skipIf s c⟩

/-! ### Comparisons (R90 to R93) -/

/-- R156: family 5 has no instruction with `m` other than 0. -/
theorem decodeWord_op5_nop {x y m : RegNo} (h : m ≠ 0) :
    decodeWord (encodeR 0x5 x y m) = .nop (encodeR 0x5 x y m) := by
  rw [decodeWord_op5 (fieldOp_encodeR _ _ _ _), decodeFamily5, fieldN_encodeR, if_neg h]

/-- R156: family 9 has no instruction with `m` other than 0. -/
theorem decodeWord_op9_nop {x y m : RegNo} (h : m ≠ 0) :
    decodeWord (encodeR 0x9 x y m) = .nop (encodeR 0x9 x y m) := by
  rw [decodeWord_op9 (fieldOp_encodeR _ _ _ _), decodeFamily9, fieldN_encodeR, if_neg h]

/-- Settles O18: each of the four words encodes its skip, and each skip's Boolean test decides its condition. -/
theorem compareSkipsByFourOrTwo : Obligations.CompareSkipsByFourOrTwo := by
  intro s x y m kk
  refine ⟨⟨?_, ?_, ?_, ?_⟩, fun hm => ⟨decodeWord_op5_nop hm, decodeWord_op9_nop hm⟩, ?_, ?_, ?_, ?_⟩
  · exact decodeWord_encode (i := .seImm x kk) rfl
  · exact decodeWord_encode (i := .sneImm x kk) rfl
  · exact decodeWord_encode (i := .seReg x y) rfl
  · exact decodeWord_encode (i := .sneReg x y) rfl
  · exact skips_of_exec rfl beq_iff_eq
  · exact skips_of_exec rfl bne_iff_ne
  · exact skips_of_exec rfl beq_iff_eq
  · exact skips_of_exec rfl bne_iff_ne

/-! ### Key tests (R94, R95) -/

/-- R168: the fault latches code 6 and the whole index, which keeps its value when widened to 16 bits. -/
theorem raise_keyIndexOutOfRange (k : Byte) (s : State) :
    raise (.keyIndexOutOfRange k) s = .next { s with faultCause := 6, faultInfo := BitVec.ofNat 16 k.toNat } := by
  rw [raise, trapCode, trapInfo, BitVec.ofNat_toNat]

section

variable {s : State} {x : RegNo}

theorem exec_skp_ok (h : (s.reg x).toNat ≤ 15) :
    exec (.skp x) s = .next (s.skipIf (s.keyDown (s.reg x).toNat)) := by
  show execSkp x s = _
  rw [execSkp, State.keyIndex_ok h]

theorem exec_sknp_ok (h : (s.reg x).toNat ≤ 15) :
    exec (.sknp x) s = .next (s.skipIf (!s.keyDown (s.reg x).toNat)) := by
  show execSknp x s = _
  rw [execSknp, State.keyIndex_ok h]

theorem exec_skp_bad (h : 15 < (s.reg x).toNat) : exec (.skp x) s = raise (.keyIndexOutOfRange (s.reg x)) s := by
  show execSkp x s = _
  rw [execSkp, State.keyIndex_bad h]

theorem exec_sknp_bad (h : 15 < (s.reg x).toNat) : exec (.sknp x) s = raise (.keyIndexOutOfRange (s.reg x)) s := by
  show execSknp x s = _
  rw [execSknp, State.keyIndex_bad h]

end

/-- Settles O19: the two outcomes of a key skip are told apart by whether `V[x]` names a key. -/
theorem keySkipsTestOneKey : Obligations.KeySkipsTestOneKey := by
  refine fun s x => ⟨fun hkey => ⟨?_, ?_⟩, fun hbad => ⟨?_, ?_⟩⟩
  · exact skips_of_exec (exec_skp_ok hkey) Iff.rfl
  · exact skips_of_exec (exec_sknp_ok hkey) (Bool.not_eq_true' _).to_iff
  · rw [exec_skp_bad hbad, raise_keyIndexOutOfRange]
  · rw [exec_sknp_bad hbad, raise_keyIndexOutOfRange]

end Sys2Proof.Safety

/-! PROOFS. Immediate, index and random instructions (spec/42_immediate_index.md). -/

namespace Sys2Proof.Safety

open Sys2Proof.Machine

/-- Settles O20: each instruction writes its result to `V[x]` alone and advances. -/
theorem immediateLoadAndAdd : Obligations.ImmediateLoadAndAdd := by
  refine fun s x kk => ⟨⟨decodeWord_encode (i := .ldImm x kk) rfl, decodeWord_encode (i := .addImm x kk) rfl⟩, ?_, ?_⟩
  · exact ⟨_, rfl, State.reg_setReg_same s x kk, State.advance_toNat (s.setReg x kk), keeps_setReg s x kk⟩
  · have hsum : ((s.setReg x (s.reg x + kk)).reg x).toNat = ((s.reg x).toNat + kk.toNat) % 256 := by
      rw [State.reg_setReg_same, BitVec.toNat_add]
    exact ⟨_, rfl, hsum, State.advance_toNat (s.setReg x _), keeps_setReg s x _⟩

/-! ### The index register (R102, R104, R105) -/

/-- R105: five times a byte is below 65536, so the product does not wrap. -/
theorem glyphAddr_toNat (d : Byte) : (glyphAddr d).toNat = 5 * d.toNat := by
  rw [glyphAddr, BitVec.toNat_mul, byteOperand_toNat]
  show 5 * d.toNat % 65536 = _
  omega

/-- Settles O21: the two outcomes of `LD F, Vx` are told apart by whether `V[x]` is a digit. -/
theorem indexLoadAndFontAddress : Obligations.IndexLoadAndFontAddress := by
  refine fun s x nnn => ⟨⟨decodeWord_encode (i := .ldI nnn) rfl, decodeWord_encode (i := .ldF x) rfl⟩, ?_, ?_⟩
  · exact ⟨_, rfl, addrOperand_toNat nnn, State.advance_toNat _, keeps_index s _⟩
  · refine ⟨_, rfl, fun hdigit => ?_, fun hlarge => ?_, State.advance_toNat _, keeps_index s _⟩
    · exact (congrArg BitVec.toNat (if_pos hdigit)).trans (glyphAddr_toNat (s.reg x))
    · exact if_neg (Nat.not_lt.mpr hlarge)

/-- Settles O22: the sum is one of 16-bit words, the byte widened to one. -/
theorem addToIndexIsUnmasked : Obligations.AddToIndexIsUnmasked := by
  intro s x
  have hsum : (s.i + byteOperand (s.reg x)).toNat = (s.i.toNat + (s.reg x).toNat) % 65536 := by
    rw [BitVec.toNat_add, byteOperand_toNat]
  exact ⟨_, rfl, hsum, State.advance_toNat _, keeps_index s _⟩

/-! ### The random byte (R103, R23) -/

theorem mask_bit_of_and_bit {a mask : Byte} {b : Nat} (h : (a &&& mask).getLsbD b = true) : mask.getLsbD b = true := by
  rw [BitVec.getLsbD_and, Bool.and_eq_true] at h
  exact h.2

/-- R103: the next state of `RND` in terms of the byte drawn, scripted or free. -/
theorem exec_rnd_masks (s : State) (x : RegNo) (kk : Byte) :
    ∃ t, exec (.rnd x kk) s = .next t ∧ t.reg x = s.rndByte &&& kk ∧ t.pc.toNat = (s.pc.toNat + 2) % 65536 ∧
      ({ regs := [x], draw := true } : Footprint).keeps s t := by
  refine ⟨_, rfl, State.reg_setReg_same s.afterDraw x _, ?_, keeps_drawn s x _⟩
  rw [State.advance_toNat, State.setReg_pc, State.afterDraw_pc]

/-- Settles O23: the mask bounds every draw, and a value within it is drawn when the environment has that byte ready. -/
theorem randomByteIsMaskedAndFree : Obligations.RandomByteIsMaskedAndFree := by
  refine fun s x kk => ⟨?_, fun v hv => ?_⟩
  · obtain ⟨t, hnext, hreg, hpc, hframe⟩ := exec_rnd_masks s x kk
    exact ⟨t, hnext, fun b _ hbit => mask_bit_of_and_bit (hreg ▸ hbit), hpc, hframe⟩
  · obtain ⟨t, hnext, hreg, -⟩ := exec_rnd_masks { s with rndIn := [v] } x kk
    exact ⟨[v], t, hnext, hreg.trans hv⟩

end Sys2Proof.Safety

/-! PROOFS. The ALU group (spec/43_alu.md). -/

namespace Sys2Proof.Safety

open Sys2Proof.Machine

/-- Settles O24: the four words are encodings, and each instruction writes its result to `V[x]` alone and advances. -/
theorem moveAndBitwise : Obligations.MoveAndBitwise := by
  refine fun s x y => ⟨⟨?_, ?_, ?_, ?_⟩, ?_, ?_, ?_, ?_⟩
  · exact decodeWord_encode (i := .ldReg x y) rfl
  · exact decodeWord_encode (i := .orReg x y) rfl
  · exact decodeWord_encode (i := .andReg x y) rfl
  · exact decodeWord_encode (i := .xorReg x y) rfl
  · exact ⟨_, rfl, State.reg_setReg_same s x _, State.advance_toNat (s.setReg x _), keeps_aluPlain s x _⟩
  · refine ⟨_, rfl, fun b _ => ?_, State.advance_toNat (s.setReg x _), keeps_aluPlain s x _⟩
    rw [State.reg_aluPlain, if_pos rfl, BitVec.getLsbD_or]
  · refine ⟨_, rfl, fun b _ => ?_, State.advance_toNat (s.setReg x _), keeps_aluPlain s x _⟩
    rw [State.reg_aluPlain, if_pos rfl, BitVec.getLsbD_and]
  · refine ⟨_, rfl, fun b _ => ?_, State.advance_toNat (s.setReg x _), keeps_aluPlain s x _⟩
    rw [State.reg_aluPlain, if_pos rfl, BitVec.getLsbD_xor]

/-! ### What the flags say (R18) -/

theorem carryFlag_eq_one {a b : Byte} : carryFlag a b = 1 ↔ 255 < a.toNat + b.toNat :=
  flagOf_eq_one.trans decide_eq_true_iff

theorem carryFlag_eq_zero {a b : Byte} : carryFlag a b = 0 ↔ a.toNat + b.toNat ≤ 255 :=
  flagOf_eq_zero.trans (decide_eq_false_iff_not.trans Nat.not_lt)

theorem greaterFlag_eq_one {a b : Byte} : greaterFlag a b = 1 ↔ b.toNat < a.toNat :=
  flagOf_eq_one.trans decide_eq_true_iff

theorem greaterFlag_eq_zero {a b : Byte} : greaterFlag a b = 0 ↔ a.toNat ≤ b.toNat :=
  flagOf_eq_zero.trans (decide_eq_false_iff_not.trans Nat.not_lt)

theorem flagOf_toNat (c : Bool) : (flagOf c).toNat = c.toNat := by cases c <;> rfl

theorem lowBitFlag_toNat (b : Byte) : (lowBitFlag b).toNat = b.toNat % 2 := by
  rw [lowBitFlag, flagOf_toNat, BitVec.getLsbD, Nat.toNat_testBit]
  omega

/-- Bit 7 is the quotient by 128, since no bit lies above it. -/
theorem highBitFlag_toNat (b : Byte) : (highBitFlag b).toNat = b.toNat / 128 := by
  have hb := b.isLt
  rw [highBitFlag, flagOf_toNat, BitVec.getLsbD, Nat.toNat_testBit]
  omega

/-! ### The flag writers (R114 to R119) -/

/-- An ALU instruction that writes a result and a flag: the result stands in `V[x]` unless `VF` is `V[x]` (R119). -/
theorem writesFlag_of_exec {i : Instr} {s : State} {x : RegNo} {r g : Byte} (h : exec i s = .next (s.aluFlag x r g)) :
    ∃ t, exec i s = .next t ∧ (x ≠ 15 → t.reg x = r) ∧ t.reg 15 = g ∧ t.pc.toNat = (s.pc.toNat + 2) % 65536 ∧
      ({ regs := [x, 15] } : Footprint).keeps s t := by
  refine ⟨_, h, fun hx => ?_, State.reg_setReg_same _ vf g, State.advance_toNat _, keeps_aluFlag s x r g⟩
  rw [State.reg_aluFlag, if_neg hx, if_pos rfl]

/-- Settles O25: the model's sum and carry are those of the operands' numbers. -/
theorem addReportsItsCarry : Obligations.AddReportsItsCarry := by
  intro s x y
  obtain ⟨t, hnext, hres, hflag, hrest⟩ := writesFlag_of_exec (i := .addReg x y) (s := s) rfl
  rw [← carryFlag_eq_one, ← carryFlag_eq_zero]
  exact ⟨t, hnext, fun hx => by rw [hres hx, BitVec.toNat_add], hflag.trans, hflag.trans, hrest⟩

/-- R115, R117: an instruction that leaves `a - b` and whether `a` is the greater. -/
theorem subtracts_of_exec {i : Instr} {s : State} {x : RegNo} {a b : Byte}
    (h : exec i s = .next (s.aluFlag x (a - b) (greaterFlag a b))) :
    ∃ t, exec i s = .next t ∧ (x ≠ 15 → (t.reg x).toNat = (a.toNat + 256 - b.toNat) % 256) ∧
      (b.toNat < a.toNat → t.reg 15 = 1) ∧ (a.toNat ≤ b.toNat → t.reg 15 = 0) ∧
      t.pc.toNat = (s.pc.toNat + 2) % 65536 ∧ ({ regs := [x, 15] } : Footprint).keeps s t := by
  obtain ⟨t, hnext, hres, hflag, hrest⟩ := writesFlag_of_exec h
  have hdiff : (a - b).toNat = (a.toNat + 256 - b.toNat) % 256 := by bv_omega
  rw [← greaterFlag_eq_one, ← greaterFlag_eq_zero]
  exact ⟨t, hnext, fun hx => by rw [hres hx, hdiff], hflag.trans, hflag.trans, hrest⟩

/-- Settles O26: `SUB` subtracts `V[y]` from `V[x]`, and `SUBN` the other way round. -/
theorem subtractComparesStrictly : Obligations.SubtractComparesStrictly :=
  fun _ _ _ => ⟨subtracts_of_exec rfl, subtracts_of_exec rfl⟩

/-- Settles O27: by the setting of the parameter, `b` is the model's shift operand. -/
theorem shiftsReportTheBitShiftedOut : Obligations.ShiftsReportTheBitShiftedOut := by
  intro s x y b hx hy
  obtain rfl : b = s.shiftOperand x y := by
    rcases s.shiftOperand_cases x y with ⟨hsrc, hop⟩ | ⟨hsrc, hop⟩
    · rw [hx hsrc, hop]
    · rw [hy hsrc, hop]
  constructor
  · obtain ⟨t, hnext, hres, hflag, hrest⟩ := writesFlag_of_exec (i := .shr x y) (s := s) rfl
    refine ⟨t, hnext, fun hne => ?_, by rw [hflag, lowBitFlag_toNat], hrest⟩
    rw [hres hne, BitVec.toNat_ushiftRight, Nat.shiftRight_eq_div_pow, pow_one]
  · obtain ⟨t, hnext, hres, hflag, hrest⟩ := writesFlag_of_exec (i := .shl x y) (s := s) rfl
    refine ⟨t, hnext, fun hne => ?_, by rw [hflag, highBitFlag_toNat], hrest⟩
    rw [hres hne, BitVec.toNat_shiftLeft, Nat.shiftLeft_eq, pow_one]

end Sys2Proof.Safety

/-! PROOFS. The display instructions (spec/44_display.md). -/

namespace Sys2Proof.Safety

open Sys2Proof.Machine

/-- Settles O28: the word is the encoding of `CLS`, and `CLS` replaces the display alone and advances. -/
theorem clearZeroesEveryCell : Obligations.ClearZeroesEveryCell :=
  ⟨decodeWord_encode (i := .cls) rfl, fun s =>
    ⟨_, rfl, fun k _ => Display.get_clear k, State.advance_toNat s, keeps_display s Display.clear⟩⟩

/-! ### What a draw can do -/

/-- A set sprite bit falls on column `cx`, row `cy` under the state's own setting of `DRAW_EDGE` (R128). -/
abbrev covers (s : State) (x y : RegNo) (n : BitVec 4) : Nat → Nat → Prop :=
  spriteLands (decide (s.cfg.drawEdge = .wrap)) s x y n

/-- When a draw raises `DisplayOutOfRange` (R128). -/
def leavesGrid (s : State) (x y : RegNo) (n : BitVec 4) : Prop :=
  s.cfg.drawEdge = .fault ∧ ∃ cx cy, spriteLands false s x y n cx cy ∧ (63 < cx ∨ 31 < cy)

/-- A set sprite bit falls on a cell of the grid that holds `b`. -/
def meets (s : State) (x y : RegNo) (n : BitVec 4) (b : Bool) : Prop :=
  ∃ cx cy, cx ≤ 63 ∧ cy ≤ 31 ∧ covers s x y n cx cy ∧ s.disp.get (64 * cy + cx) = b

/-- What a draw that raises no fault does (R126). -/
structure Draws (s : State) (x y : RegNo) (n : BitVec 4) (t : State) : Prop where
  /-- exactly the covered cells change -/
  cells : ∀ cx cy, cx ≤ 63 → cy ≤ 31 →
    (t.disp.get (64 * cy + cx) ≠ s.disp.get (64 * cy + cx) ↔ covers s x y n cx cy)
  hit : t.reg 15 = 1 ↔ meets s x y n true
  miss : t.reg 15 = 0 ↔ ¬meets s x y n true
  pc : t.pc.toNat = (s.pc.toNat + 2) % 65536
  frame : ({ regs := [15], disp := true } : Footprint).keeps s t

section

variable {s : State} {x y : RegNo} {n : BitVec 4} {ks : List Nat}

theorem edgeCells_spriteOf (h : edgeCells s.cfg.drawEdge (s.spriteOf x y n) = some ks) :
    ks.Nodup ∧ ∀ k ∈ ks, k < 2048 :=
  edgeCells_sprite (by rw [State.bytesFrom_length]; omega) h

/-- A cell of the grid is plotted exactly when a set sprite bit covers it. -/
theorem cell_mem_iff_covers (h : edgeCells s.cfg.drawEdge (s.spriteOf x y n) = some ks) {cx cy : Nat} (hx : cx ≤ 63)
    (hy : cy ≤ 31) : 64 * cy + cx ∈ ks ↔ covers s x y n cx cy := by
  rw [mem_edgeCells h]
  constructor
  · rintro ⟨cx', cy', hx', -, hk, hl⟩
    obtain ⟨rfl, rfl⟩ : cx' = cx ∧ cy' = cy := by omega
    exact hl
  · exact fun hl => ⟨cx, cy, hx, hy, rfl, hl⟩

theorem plotted_meets (h : edgeCells s.cfg.drawEdge (s.spriteOf x y n) = some ks) :
    (plot ks s.disp false).2 = true ↔ meets s x y n true := by
  rw [plot_met _ _ _ (edgeCells_spriteOf h).1, Bool.false_or, List.any_eq_true]
  constructor
  · rintro ⟨k, hk, hset⟩
    obtain ⟨cx, cy, hx, hy, rfl, hl⟩ := (mem_edgeCells h k).mp hk
    exact ⟨cx, cy, hx, hy, hl, hset⟩
  · rintro ⟨cx, cy, hx, hy, hl, hset⟩
    exact ⟨64 * cy + cx, (cell_mem_iff_covers h hx hy).mpr hl, hset⟩

/-- R126: plotting the cells a sprite falls on and then writing the flag is a draw. -/
theorem draws_of_edgeCells (h : edgeCells s.cfg.drawEdge (s.spriteOf x y n) = some ks) :
    Draws s x y n ({ s with disp := (plot ks s.disp false).1 }.setReg vf
      (collisionFlag (plot ks s.disp false).2)).advance where
  cells cx cy hx hy := by
    obtain ⟨hnodup, hlt⟩ := edgeCells_spriteOf h
    rw [State.advance_disp, State.setReg_disp, plot_get ks s.disp false _ hnodup hlt, ← cell_mem_iff_covers h hx hy]
    cases s.disp.get (64 * cy + cx) <;> simp
  hit := by rw [State.reg_advance, State.reg_setReg_same, ← plotted_meets h]; exact flagOf_eq_one
  miss := by
    rw [State.reg_advance, State.reg_setReg_same, ← plotted_meets h, Bool.not_eq_true]; exact flagOf_eq_zero
  pc := State.advance_toNat _
  frame := keeps_plotted s _ _

end

/-- R128: the display fault latches code 5 and the origin, the row in the high byte. -/
theorem raise_displayOutOfRange (ox oy : Byte) (s : State) : raise (.displayOutOfRange ox oy) s =
    .next { s with faultCause := 5, faultInfo := BitVec.ofNat 16 (oy.toNat * 256 + ox.toNat) } := by
  have hinfo : (oy ++ ox : Word) = BitVec.ofNat 16 (oy.toNat * 256 + ox.toNat) := by
    rw [← append_bytes_toNat, BitVec.ofNat_toNat, BitVec.setWidth_eq]
  rw [← hinfo]
  rfl

/-- R126, R170: a draw raises the data fault, else the display fault, else it draws. -/
theorem exec_drw_cases (s : State) (x y : RegNo) (n : BitVec 4) :
    (¬dataFits s n.toNat ∧ exec (.drw x y n) s =
      .next { s with faultCause := 2, faultInfo := BitVec.ofNat 16 (max s.i.toNat 0x1000) }) ∨
    (dataFits s n.toNat ∧ leavesGrid s x y n ∧ exec (.drw x y n) s =
      .next { s with faultCause := 5, faultInfo := BitVec.ofNat 16 ((s.reg y).toNat * 256 + (s.reg x).toNat) }) ∨
    (dataFits s n.toNat ∧ ¬leavesGrid s x y n ∧ ∃ t, exec (.drw x y n) s = .next t ∧ Draws s x y n t) := by
  by_cases hfits : dataFits s n.toNat
  · have hexec : exec (.drw x y n) s = _ := State.withData_fits _ hfits
    rw [hexec, leavesGrid, ← edgeCells_eq_none]
    cases hcells : edgeCells s.cfg.drawEdge (s.spriteOf x y n) with
    | none => exact .inr (.inl ⟨hfits, rfl, raise_displayOutOfRange _ _ s⟩)
    | some ks => exact .inr (.inr ⟨hfits, nofun, _, rfl, draws_of_edgeCells hcells⟩)
  · exact .inl ⟨hfits, State.withData_beyond _ hfits⟩

section

variable {s t : State} {x y : RegNo} {n : BitVec 4}

theorem exec_drw_draws (hfits : dataFits s n.toNat) (hin : ¬leavesGrid s x y n) :
    ∃ t, exec (.drw x y n) s = .next t ∧ Draws s x y n t := by
  rcases exec_drw_cases s x y n with ⟨hbeyond, -⟩ | ⟨-, hout, -⟩ | ⟨-, -, hdraws⟩
  · exact absurd hfits hbeyond
  · exact absurd hout hin
  · exact hdraws

/-- A draw after which the engine runs raised no fault. -/
theorem draws_of_running (h : exec (.drw x y n) s = .next t) (hrun : running t) :
    dataFits s n.toNat ∧ ¬leavesGrid s x y n ∧ Draws s x y n t := by
  rcases exec_drw_cases s x y n with ⟨-, e⟩ | ⟨-, -, e⟩ | ⟨hfits, hin, v, e, hdraws⟩ <;> cases e.symm.trans h
  · exact absurd hrun (by simp [running])
  · exact absurd hrun (by simp [running])
  · exact ⟨hfits, hin, hdraws⟩

end

/-! ### The obligations about `DRW` -/

/-- Settles O29: the three outcomes of a draw are told apart by the two checks, and inside the grid no bound is lost. -/
theorem drawXorsTheSprite : Obligations.DrawXorsTheSprite := by
  intro s x y n hedge
  have hcovers : covers s x y n = spriteLands false s x y n := by simp [covers, hedge]
  refine ⟨fun hfits => State.withData_beyond _ hfits, fun hfits hout => ?_, fun hfits hin => ?_⟩
  · rcases exec_drw_cases s x y n with ⟨hbeyond, -⟩ | ⟨-, -, e⟩ | ⟨-, hin, -⟩
    · exact absurd hfits hbeyond
    · exact e
    · exact absurd ⟨hedge, hout⟩ hin
  · have hstays : ¬leavesGrid s x y n := by
      rintro ⟨-, cx, cy, hl, hout⟩
      have := hin cx cy hl
      omega
    have hmeets : meets s x y n true ↔ ∃ cx cy, spriteLands false s x y n cx cy ∧ s.disp.get (64 * cy + cx) = true := by
      rw [meets, hcovers]
      constructor
      · rintro ⟨cx, cy, -, -, hl, hset⟩
        exact ⟨cx, cy, hl, hset⟩
      · rintro ⟨cx, cy, hl, hset⟩
        exact ⟨cx, cy, (hin cx cy hl).1, (hin cx cy hl).2, hl, hset⟩
    obtain ⟨t, hnext, hdraws⟩ := exec_drw_draws hfits hstays
    rw [← hmeets]
    exact ⟨t, hnext, hcovers ▸ hdraws.cells, hdraws.hit.mpr, hdraws.miss.mpr, hdraws.pc, hdraws.frame⟩

/-- Settles O30: with either setting a draw never leaves the grid, so only the data check is left. -/
theorem drawClipsOrWraps : Obligations.DrawClipsOrWraps := by
  intro s x y n wrapped hedge hfits
  have hcovers : covers s x y n = spriteLands wrapped s x y n := by cases wrapped <;> simp [covers, hedge]
  have hstays : ¬leavesGrid s x y n := by
    rintro ⟨hfault, -⟩
    cases wrapped <;> simp [hedge] at hfault
  obtain ⟨t, hnext, hdraws⟩ := exec_drw_draws hfits hstays
  rw [← hcovers]
  exact ⟨t, hnext, hdraws.cells, hdraws.hit.mpr, hdraws.miss.mpr, hdraws.pc, hdraws.frame⟩

section

variable {s t u w : State} {x y : RegNo} {n : BitVec 4}

/-- Where a sprite lands is settled by its origin, its address and the bytes in memory (R127). -/
theorem spriteLands_congr (hx : u.reg x = s.reg x) (hy : u.reg y = s.reg y) (hi : u.i = s.i)
    (hmem : ∀ a, u.byteAt a = s.byteAt a) (wrapped : Bool) :
    spriteLands wrapped u x y n = spriteLands wrapped s x y n := by
  funext cx cy
  simp only [spriteLands, hx, hy, hi, hmem]

/-- R129 (d): two draws that cover the same cells change each of them twice. -/
theorem disp_of_draws_twice (hst : Draws s x y n t) (huw : Draws u x y n w) (hdisp : u.disp = t.disp)
    (hcovers : covers u x y n = covers s x y n) : w.disp = s.disp := by
  refine Display.ext_get fun k hk => ?_
  have h1 := hst.cells (k % 64) (k / 64) (by omega) (by omega)
  have h2 := huw.cells (k % 64) (k / 64) (by omega) (by omega)
  rw [Nat.div_add_mod] at h1 h2
  rw [hcovers, hdisp, ← h1] at h2
  cases hs : s.disp.get k <;> cases ht : t.disp.get k <;> simpa [hs, ht] using h2

/-- R129 (d): a covered cell is 1 after a draw exactly when it was 0 before. -/
theorem meets_after_draw (hst : Draws s x y n t) (hdisp : u.disp = t.disp)
    (hcovers : covers u x y n = covers s x y n) : meets u x y n true ↔ meets s x y n false := by
  have hflip {cx cy} (hx : cx ≤ 63) (hy : cy ≤ 31) (hl : covers s x y n cx cy) :
      t.disp.get (64 * cy + cx) = true ↔ s.disp.get (64 * cy + cx) = false := by
    rw [Bool.eq_not.mpr ((hst.cells cx cy hx hy).mpr hl), Bool.not_eq_true']
  rw [meets, meets, hcovers, hdisp]
  constructor <;> rintro ⟨cx, cy, hx, hy, hl, hcell⟩
  · exact ⟨cx, cy, hx, hy, hl, (hflip hx hy hl).mp hcell⟩
  · exact ⟨cx, cy, hx, hy, hl, (hflip hx hy hl).mpr hcell⟩

end

/-- Settles O31: the second draw passes the checks the first one passed, and covers the same cells. -/
theorem drawTwiceRestoresTheDisplay : Obligations.DrawTwiceRestoresTheDisplay := by
  intro s t u x y n hnext hrun hx hy hi hcfg hmem hdisp
  obtain ⟨hfits, hin, hfirst⟩ := draws_of_running hnext hrun
  have hlands := spriteLands_congr (n := n) hx hy hi hmem
  have hcovers : covers u x y n = covers s x y n := by rw [covers, hcfg, hlands]
  have hfits' : dataFits u n.toNat := by rwa [dataFits, hi]
  have hin' : ¬leavesGrid u x y n := by rwa [leavesGrid, hcfg, hlands]
  obtain ⟨w, hnext', hsecond⟩ := exec_drw_draws hfits' hin'
  obtain ⟨-, -, -, -, -, -, -, -, -, -, -, hcause, -⟩ := hsecond.frame
  exact ⟨w, hnext', disp_of_draws_twice hfirst hsecond hdisp hcovers, hcause,
    hsecond.hit.trans (meets_after_draw hfirst hdisp hcovers)⟩

end Sys2Proof.Safety

/-! PROOFS. Timer access and the key wait (spec/45_timers_keys.md). -/

namespace Sys2Proof.Safety

open Sys2Proof.Machine

/-- Settles O32: the read writes `V[x]` alone, and the write `DT` alone. -/
theorem delayTimerMoves : Obligations.DelayTimerMoves := by
  refine fun s x => ⟨?_, ?_⟩
  · exact ⟨_, rfl, State.reg_setReg_same s x s.dt, State.advance_toNat (s.setReg x s.dt), keeps_setReg s x s.dt⟩
  · exact ⟨_, rfl, rfl, State.advance_toNat _, keeps_delay s (s.reg x)⟩

/-- Settles O33: the word encodes `LD ST, Vx`, which writes `ST` alone and advances. -/
theorem soundTimerIsWritten : Obligations.SoundTimerIsWritten :=
  fun s x => ⟨decodeWord_encode (i := .ldSTVx x) rfl, _, rfl, rfl, State.advance_toNat _, keeps_sound s (s.reg x)⟩

/-! ### The key wait (R138, R139) -/

section

variable {s : State}

theorem exec_ldVxK_waits (x : RegNo) (h : s.lowestKey = none) : exec (.ldVxK x) s = .next s := by
  show execLdVxK x s = _
  rw [execLdVxK, h]

theorem exec_ldVxK_takes (x : RegNo) {k : Nat} (h : s.lowestKey = some k) :
    exec (.ldVxK x) s = .next (s.setReg x (BitVec.ofNat 8 k)).advance := by
  show execLdVxK x s = _
  rw [execLdVxK, h]

end

/-- Settles O34: the two outcomes of the wait are told apart by the least key pressed, whose number fits a byte. -/
theorem keyWaitHoldsOrTakesTheLeastKey : Obligations.KeyWaitHoldsOrTakesTheLeastKey := by
  refine fun s x => ⟨decodeWord_encode (i := .ldVxK x) rfl, fun hnone => ?_, fun k hk hdown hleast => ?_⟩
  · exact exec_ldVxK_waits x (State.lowestKey_none.mpr hnone)
  · have hkey : s.lowestKey = some k := State.lowestKey_some.mpr ⟨hk, hdown, hleast⟩
    have hreg : ((s.setReg x (BitVec.ofNat 8 k)).reg x).toNat = k := by
      rw [State.reg_setReg_same, BitVec.toNat_ofNat, Nat.mod_eq_of_lt (by omega)]
    exact ⟨_, exec_ldVxK_takes x hkey, hreg, State.advance_toNat (s.setReg x _), keeps_setReg s x _⟩

end Sys2Proof.Safety

/-! PROOFS. Memory transfer (spec/46_memory_transfer.md). -/

namespace Sys2Proof.Safety

open Sys2Proof.Machine

/-- R14 a: storing bytes leaves `pc` to the advance. -/
theorem putBytes_advance_toNat (s : State) (a : Nat) (bs : List Byte) :
    (s.putBytes a bs).advance.pc.toNat = (s.pc.toNat + 2) % 65536 := by
  rw [State.advance_toNat, State.putBytes_pc]

/-! ### The register dump (R147) -/

/-- R147: `I` grows by `x + 1`, modulo 65536 (D7). -/
theorem dumpIndex_toNat (i : Word) (x : RegNo) :
    (i + x.zeroExtend 16 + 1).toNat = (i.toNat + x.toNat + 1) % 65536 := by
  have hx : (x.zeroExtend 16).toNat = x.toNat := BitVec.toNat_setWidth_of_le (by omega)
  rw [BitVec.toNat_add, BitVec.toNat_add, hx]
  exact Nat.mod_add_mod _ _ _

/-- Settles O36: the two outcomes of a dump are told apart by whether its bytes exist. -/
theorem registerDumpStoresBelowX : Obligations.RegisterDumpStoresBelowX := by
  refine fun s x => ⟨fun hfits => ?_, State.withData_beyond _⟩
  have hexec := exec_ldMemVx_fits hfits
  exact ⟨_, hexec, fun r hr => byteAt_of_dump hfits hexec hr, dumpIndex_toNat s.i x,
    putBytes_advance_toNat s _ _, keeps_dumped s _ _ _ _ (State.regsBelow_length s x.toNat)⟩

/-! ### The register load (R148, R149) -/

/-- R148: a load that fits fills the registers below `x` from `I` up. -/
theorem exec_ldVxMem_fits {s : State} {x : RegNo} (h : dataFits s x.toNat) : exec (.ldVxMem x) s =
    .next (s.setRegs 0 (s.bytesFrom (s.dataAddr 0) x.toNat)).advance :=
  State.withData_fits _ h

/-- R148: bytes loaded from register 0 up reach every register below their number. -/
theorem reg_setRegs_zero (s : State) {bs : List Byte} {r : RegNo} (h16 : bs.length ≤ 16) (hr : r.toNat < bs.length) :
    (s.setRegs 0 bs).reg r = bs[r.toNat] := by
  have h := State.reg_setRegs_inside s 0 r.toNat bs hr (by omega)
  rwa [Nat.zero_add, BitVec.ofNat_toNat, BitVec.setWidth_eq] at h

/-- Settles O37: the two outcomes of a load are told apart by whether its bytes exist. -/
theorem registerLoadFillsBelowX : Obligations.RegisterLoadFillsBelowX := by
  refine fun s x => ⟨fun hfits => ?_, State.withData_beyond _⟩
  have hlen : (s.bytesFrom (s.dataAddr 0) x.toNat).length = x.toNat := State.bytesFrom_length s _ _
  refine ⟨_, exec_ldVxMem_fits hfits, fun r hr => ?_, ?_, keeps_setRegs s _ _ hlen (by omega)⟩
  · rw [State.reg_advance, reg_setRegs_zero s (by omega) (by omega)]
    exact State.bytesFrom_getElem s _ _ _ _
  · rw [State.advance_toNat, State.setRegs_pc]

/-- Settles O38: the load reads the addresses the dump wrote. -/
theorem loadReadsBackADump : Obligations.LoadReadsBackADump := by
  intro s t u x hfits hdump hi hmem hcfg
  have hfits' : dataFits u x.toNat := by rwa [dataFits, hi]
  obtain ⟨w, hload, hregs, -⟩ := (registerLoadFillsBelowX u x).1 hfits'
  refine ⟨w, hload, fun r hr => ?_⟩
  calc w.reg r = u.byteAt (u.i.toNat + r.toNat) := hregs r hr
    _ = t.byteAt (s.i.toNat + r.toNat) := by rw [hi, byteAt_congr hmem hcfg]
    _ = s.reg r := byteAt_of_dump hfits hdump hr

/-! ### Decimal digits (R146) -/

@[simp] theorem decimalDigits_length (b : Byte) : (decimalDigits b).length = 3 := rfl

/-- R146: hundreds, tens and units, in the arithmetic of numbers. -/
theorem decimalDigits_toNat (b : Byte) : (decimalDigits b)[0].toNat = b.toNat / 100 ∧
    (decimalDigits b)[1].toNat = b.toNat / 10 % 10 ∧ (decimalDigits b)[2].toNat = b.toNat % 10 := by
  simp [decimalDigits]

/-- R146: after the digits are stored, the byte at `I + k` is the `k`-th of them. -/
theorem byteAt_of_digits {s t : State} {x : RegNo} {k : Nat} (hfits : dataFits s 3) (h : exec (.ldB x) s = .next t)
    (hk : k < (decimalDigits (s.reg x)).length) : t.byteAt (s.dataAddr k) = (decimalDigits (s.reg x))[k] := by
  cases (exec_ldB_fits hfits).symm.trans h
  exact State.byteAt_putBytes_inside s (s.dataAddr 0) k _ hk

/-- Settles O35: the two outcomes of `LD B, Vx` are told apart by whether its three bytes exist. -/
theorem decimalDigitsAreStored : Obligations.DecimalDigitsAreStored := by
  refine fun s x => ⟨fun hi => ?_, fun hi => State.withData_beyond _ ?_⟩
  · have hfits : dataFits s 3 := .inr (by omega)
    have hexec := exec_ldB_fits (x := x) hfits
    obtain ⟨hhundreds, htens, hunits⟩ := decimalDigits_toNat (s.reg x)
    refine ⟨_, hexec, ?_, ?_, ?_, putBytes_advance_toNat s _ _, keeps_putBytes s _ _⟩
    · rw [byteAt_of_digits hfits hexec (by simp), hhundreds]
    · rw [byteAt_of_digits hfits hexec (by simp), htens]
    · rw [byteAt_of_digits hfits hexec (by simp), hunits]
  · rintro (h | h) <;> omega

end Sys2Proof.Safety

/-! PROOFS. Unrecognised words (spec/47_unrecognised.md). -/

namespace Sys2Proof.Safety

open Sys2Proof.Machine

/-- R155: the no-operation writes `pc` only, whatever word it carries. -/
theorem exec_nop (w : Word) (s : State) : exec (.nop w) s = .next s.advance := rfl

/-- Settles O40: a word no row matches is left to the no-operation, which advances. -/
theorem unrecognisedWordOnlyAdvances : Obligations.UnrecognisedWordOnlyAdvances := by
  intro s w hnomatch
  have hdecode : decodeWord w = .nop w := decodeWord_of_unrecognised ((unrecognised_iff w).mpr hnomatch)
  exact ⟨hdecode, _, exec_nop w s, State.advance_toNat s, keeps_advance (keeps_refl _ s)⟩

end Sys2Proof.Safety

/-! PROOFS. Faults: precision, the table of faults, and the delay timer (spec/60_exceptions.md). -/

namespace Sys2Proof.Safety

open Sys2Proof.Machine

/-- Settles O43: a fetch that faults writes the latch alone, and so does an instruction that does not complete. -/
theorem faultsArePrecise : Obligations.FaultsArePrecise := by
  intro s t hdue hs h ht
  rcases step_cycle hdue with ⟨hhalt, -⟩ | ⟨-, -, e⟩ | ⟨-, w, -, e⟩
  · exact absurd hs hhalt
  · cases e.symm.trans h
    rfl
  · rcases exec_next_cases (e.symm.trans h) with hc | ⟨f, rfl⟩
    · exact absurd (completes_running hc hs) ht
    · rfl

/-! ### The table of faults (R162) -/

/-- The table of R162: when an instruction meets a fault, and what the fault records. No instruction meets the fault of a
fetch (R163). -/
inductive MeetsFault (s : State) (i : Instr) : Trap → Prop
  /-- R164 -/
  | data (hbeyond : ¬dataFits s (dataSpan i)) : MeetsFault s i (.dataOutOfRange (lowestBeyond s.i))
  /-- R165 -/
  | overflow (hrow : i.row = 4) (hfull : s.sp.val = 16) : MeetsFault s i .stackOverflow
  /-- R166 -/
  | underflow (hrow : i.row = 2) (hempty : s.sp.val = 0) : MeetsFault s i .stackUnderflow
  /-- R167; the data fault comes first (R170) -/
  | display {x y : RegNo} {n : BitVec 4} (hi : i = .drw x y n) (hfits : dataFits s n.toNat) (hout : leavesGrid s x y n) :
      MeetsFault s i (.displayOutOfRange (s.reg x) (s.reg y))
  /-- R168 -/
  | keyIndex {x : RegNo} (hi : i = .skp x ∨ i = .sknp x) (hbad : 15 < (s.reg x).toNat) :
      MeetsFault s i (.keyIndexOutOfRange (s.reg x))

theorem withData_raise {s : State} {n : Nat} (go : Result) (h : ¬dataFits s n) :
    s.withData n go = raise (.dataOutOfRange (lowestBeyond s.i)) s := by
  rw [State.withData_beyond go h, ← lowestBeyond_eq]
  rfl

/-- An instruction that accesses memory beyond 0xFFF raises the data fault, `DRW` before the display fault (R164, R170). -/
theorem exec_raise_data {s : State} {i : Instr} (h : ¬dataFits s (dataSpan i)) :
    exec i s = raise (.dataOutOfRange (lowestBeyond s.i)) s := by
  cases i with
  | drw | ldB | ldMemVx | ldVxMem => exact withData_raise _ h
  | _ => exact absurd (.inl rfl) h

/-- R162: an instruction that meets a fault raises it. -/
theorem exec_of_meetsFault {s : State} {i : Instr} {e : Trap} (h : MeetsFault s i e) : exec i s = raise e s := by
  cases h with
  | data hbeyond => exact exec_raise_data hbeyond
  | overflow hrow hfull =>
    cases i with
    | call nnn => exact (callPushesItsOwnAddress s nnn).2 hfull
    | _ => simp [Instr.row] at hrow
  | underflow hrow hempty =>
    cases i with
    | ret => exact (returnResumesAfterTheCall s).2 hempty
    | _ => simp [Instr.row] at hrow
  | display hi hfits hout =>
    subst hi
    obtain ⟨hedge, hoff⟩ := hout
    obtain ⟨-, hfault, -⟩ := drawXorsTheSprite s _ _ _ hedge
    rw [raise_displayOutOfRange]
    exact hfault hfits hoff
  | keyIndex hi hbad =>
    rcases hi with rfl | rfl
    · exact exec_skp_bad hbad
    · exact exec_sknp_bad hbad

section

variable {i : Instr} {s t : State}

/-- R162: an instruction that leaves a fault latched has met one. -/
theorem exists_meetsFault (hs : running s) (h : exec i s = .next t) (ht : ¬running t) : ∃ e, MeetsFault s i e := by
  have runs {u : State} (e : exec i s = .next u) (hu : running u) : ∃ e, MeetsFault s i e := by
    cases e.symm.trans h
    exact absurd hu ht
  by_cases hfits : dataFits s (dataSpan i)
  case neg => exact ⟨_, .data hfits⟩
  cases i with
  | ret =>
    rcases exec_ret s with ⟨_, _, e⟩ | ⟨hempty, -⟩
    · exact runs e hs
    · exact ⟨_, .underflow rfl hempty⟩
  | call nnn =>
    rcases exec_call s nnn with ⟨_, e⟩ | ⟨hfull, -⟩
    · exact runs e hs
    · exact ⟨_, .overflow rfl hfull⟩
  | skp x =>
    rcases Nat.lt_or_ge 15 (s.reg x).toNat with hbad | hkey
    · exact ⟨_, .keyIndex (.inl rfl) hbad⟩
    · exact runs (exec_skp_ok hkey) hs
  | sknp x =>
    rcases Nat.lt_or_ge 15 (s.reg x).toNat with hbad | hkey
    · exact ⟨_, .keyIndex (.inr rfl) hbad⟩
    · exact runs (exec_sknp_ok hkey) hs
  | drw x y n =>
    by_cases hout : leavesGrid s x y n
    · exact ⟨_, .display rfl hfits hout⟩
    · obtain ⟨u, e, hdraws⟩ := exec_drw_draws hfits hout
      obtain ⟨-, -, -, -, -, -, -, -, -, -, -, hcause, -⟩ := hdraws.frame
      exact runs e (hcause.trans hs)
  | ldVxK x =>
    cases hk : s.lowestKey with
    | none => exact runs (exec_ldVxK_waits x hk) hs
    | some k => exact runs (exec_ldVxK_takes x hk) hs
  | ldB x => exact runs (exec_ldB_fits hfits) ((s.putBytes_faultCause _ _).trans hs)
  | ldMemVx x => exact runs (exec_ldMemVx_fits hfits) ((s.putBytes_faultCause _ _).trans hs)
  | ldVxMem x => exact runs (exec_ldVxMem_fits hfits) ((s.setRegs_faultCause _ _).trans hs)
  | rnd x kk => exact runs rfl (s.afterDraw_faultCause.trans hs)
  | _ => exact runs rfl hs

/-- R162: what an instruction that met a fault leaves in the latch. -/
theorem latched_of_meetsFault (h : exec i s = .next t) {e : Trap} (he : MeetsFault s i e) :
    t.faultCause = trapCode e ∧ t.faultInfo = trapInfo e := by
  cases (exec_of_meetsFault he).symm.trans h
  exact ⟨rfl, rfl⟩

/-- One row of the table: code `c` is latched exactly under the row's condition `P`, and then with the row's value, as `C`
says of it. -/
theorem latched_row (hs : running s) (h : exec i s = .next t) {c : BitVec 3} {P C : Prop} (hc : c ≠ 0)
    (hmet : ∀ e, MeetsFault s i e → trapCode e = c → t.faultInfo = trapInfo e → P ∧ C)
    (hmeets : P → ∃ e, MeetsFault s i e ∧ trapCode e = c) : (t.faultCause = c ↔ P) ∧ (t.faultCause = c → C) := by
  have hrow : t.faultCause = c → P ∧ C := by
    rintro rfl
    obtain ⟨e, he⟩ := exists_meetsFault hs h hc
    obtain ⟨hcode, hinfo⟩ := latched_of_meetsFault h he
    exact hmet e he hcode.symm hinfo
  refine ⟨⟨fun hcode => (hrow hcode).1, fun hP => ?_⟩, fun hcode => (hrow hcode).2⟩
  obtain ⟨e, he, rfl⟩ := hmeets hP
  exact (latched_of_meetsFault h he).1

/-- R164: code 2 and the lowest address out of range. -/
theorem dataOutOfRange_row (hs : running s) (h : exec i s = .next t) :
    (t.faultCause = 2 ↔ ¬dataFits s (dataSpan i)) ∧ (t.faultCause = 2 → t.faultInfo.toNat = max s.i.toNat 0x1000) := by
  refine latched_row hs h (by decide) (fun e he hcode hinfo => ?_) fun hbeyond => ⟨_, .data hbeyond, rfl⟩
  cases he with
  | data hbeyond => exact ⟨hbeyond, hinfo ▸ lowestBeyond_toNat s.i⟩
  | _ => simp [trapCode] at hcode

/-- R165: code 3 and the 16 entries in use. -/
theorem stackOverflow_row (hs : running s) (h : exec i s = .next t) :
    (t.faultCause = 3 ↔ i.row = 4 ∧ s.sp.val = 16) ∧ (t.faultCause = 3 → t.faultInfo = 16) := by
  refine latched_row hs h (by decide) (fun e he hcode hinfo => ?_)
    fun ⟨hrow, hfull⟩ => ⟨_, .overflow hrow hfull, rfl⟩
  cases he with
  | overflow hrow hfull => exact ⟨⟨hrow, hfull⟩, hinfo⟩
  | _ => simp [trapCode] at hcode

/-- R166: code 4 and no entry in use. -/
theorem stackUnderflow_row (hs : running s) (h : exec i s = .next t) :
    (t.faultCause = 4 ↔ i.row = 2 ∧ s.sp.val = 0) ∧ (t.faultCause = 4 → t.faultInfo = 0) := by
  refine latched_row hs h (by decide) (fun e he hcode hinfo => ?_)
    fun ⟨hrow, hempty⟩ => ⟨_, .underflow hrow hempty, rfl⟩
  cases he with
  | underflow hrow hempty => exact ⟨⟨hrow, hempty⟩, hinfo⟩
  | _ => simp [trapCode] at hcode

/-- R167: code 5 and the sprite's origin. -/
theorem displayOutOfRange_row (hs : running s) (h : exec i s = .next t) :
    (t.faultCause = 5 ↔ ∃ x y n cx cy, i = .drw x y n ∧ s.cfg.drawEdge = .fault ∧ dataFits s n.toNat ∧
      spriteLands false s x y n cx cy ∧ (63 < cx ∨ 31 < cy)) ∧
    (t.faultCause = 5 → ∀ x y n, i = .drw x y n → t.faultInfo.toNat = (s.reg y).toNat * 256 + (s.reg x).toNat) := by
  refine latched_row hs h (by decide) (fun e he hcode hinfo => ?_) ?_
  · cases he with
    | display hi hfits hout =>
      obtain ⟨hedge, cx, cy, hlands, hbeyond⟩ := hout
      refine ⟨⟨_, _, _, cx, cy, hi, hedge, hfits, hlands, hbeyond⟩, fun _ _ _ hi' => ?_⟩
      cases hi.symm.trans hi'
      exact hinfo ▸ append_bytes_toNat _ _
    | _ => simp [trapCode] at hcode
  · rintro ⟨x, y, n, cx, cy, hi, hedge, hfits, hlands, hbeyond⟩
    exact ⟨_, .display hi hfits ⟨hedge, cx, cy, hlands, hbeyond⟩, rfl⟩

/-- R168: code 6 and the key index. -/
theorem keyIndexOutOfRange_row (hs : running s) (h : exec i s = .next t) :
    (t.faultCause = 6 ↔ ∃ x, (i = .skp x ∨ i = .sknp x) ∧ 15 < (s.reg x).toNat) ∧
    (t.faultCause = 6 → ∀ x, i = .skp x ∨ i = .sknp x → t.faultInfo.toNat = (s.reg x).toNat) := by
  refine latched_row hs h (by decide) (fun e he hcode hinfo => ?_) fun ⟨_, hi, hbad⟩ => ⟨_, .keyIndex hi hbad, rfl⟩
  cases he with
  | @keyIndex x hi hbad =>
    refine ⟨⟨x, hi, hbad⟩, fun x' hi' => ?_⟩
    obtain rfl : x = x' := by
      rcases hi with rfl | rfl <;> simpa using hi'
    exact hinfo ▸ byteOperand_toNat _
  | _ => simp [trapCode] at hcode

/-- R162, R163: an instruction never latches the code of the fetch fault, nor code 7, which no fault has. -/
theorem latches_neither_one_nor_seven (hs : running s) (h : exec i s = .next t) :
    t.faultCause ≠ 1 ∧ t.faultCause ≠ 7 := by
  by_cases ht : running t
  · rw [show t.faultCause = 0 from ht]
    decide
  · obtain ⟨e, he⟩ := exists_meetsFault hs h ht
    rw [(latched_of_meetsFault h he).1]
    cases he <;> simp [trapCode]

end

/-- Settles O44: row by row of the table. -/
theorem faultTableIsComplete : Obligations.FaultTableIsComplete := by
  intro i s t hs h
  obtain ⟨hdata, hdataInfo⟩ := dataOutOfRange_row hs h
  obtain ⟨hover, hoverInfo⟩ := stackOverflow_row hs h
  obtain ⟨hunder, hunderInfo⟩ := stackUnderflow_row hs h
  obtain ⟨hdisp, hdispInfo⟩ := displayOutOfRange_row hs h
  obtain ⟨hkey, hkeyInfo⟩ := keyIndexOutOfRange_row hs h
  exact ⟨hdata, hdataInfo, hover, hoverInfo, hunder, hunderInfo, hdisp, hdispInfo, hkey, hkeyInfo,
    latches_neither_one_nor_seven hs h⟩

/-! ### The delay timer (R176, R177) -/

/-- R136, R19: an instruction after which `DT` differs is Fx15, and `DT` is what it wrote. -/
theorem exec_dt_of_ne {i : Instr} {s t : State} (h : exec i s = .next t) (hne : t.dt ≠ s.dt) :
    ∃ x, i = .ldDTVx x ∧ t.dt = s.reg x := by
  obtain ⟨-, -, -, hrow, -⟩ := onlyTheNamedInstructionsWrite i s t h
  have hrow := hrow hne
  cases i with
  | ldDTVx x =>
    cases h
    exact ⟨x, rfl, rfl⟩
  | _ => simp [Instr.row] at hrow

/-- Settles O49: by the action taken; a `Tick` and a `Reset` only lower `DT`, and of the instructions only Fx15 writes it. -/
theorem delayTimerRisesOnlyByFx15 : Obligations.DelayTimerRisesOnlyByFx15 := by
  intro s t h hrise
  cases stepTo_of_step h with
  | fetchFault | setKeys => exact absurd hrise (lt_irrefl _)
  | runs w hdue _ hw ht =>
    obtain ⟨x, hi, hdt⟩ := exec_dt_of_ne ht fun e => hrise.ne' (congrArg BitVec.toNat e)
    exact ⟨hdue, w, x, hw, hi, hdt⟩
  | tick =>
    have hdown : (countDown s.dt).toNat = s.dt.toNat - 1 := countDown_toNat s.dt
    have hrise : s.dt.toNat < (countDown s.dt).toNat := hrise
    omega
  | load => exact absurd hrise (by simp)
  | reset => exact absurd hrise (Nat.not_lt_zero _)

/-- Settles O9: the head of the agenda is taken, and `hostTick` counts both timers down. -/
theorem tickCountsTheTimersDown : Obligations.TickCountsTheTimersDown := fun s _ ha =>
  ⟨_, step_of_cons ha, countDown_toNat s.dt, countDown_toNat s.st, rfl⟩

end Sys2Proof.Safety

/-! PROOFS. `Load`, `Reset` and the end of a run (spec/70_reset_and_hazards.md). -/

namespace Sys2Proof.Safety

open Sys2Proof.Machine

/-! ### `Load` (R195) -/

section

variable {bytes : List Byte} {s : State}

theorem hostLoad_fits (hfresh : s.fresh = true) (hlen : bytes.length ≤ maxProgram) :
    hostLoad bytes s = .next (s.putBytes progBase bytes) := by
  simp [hostLoad, hfresh, Nat.not_lt.mpr hlen]

theorem hostLoad_tooLong (hfresh : s.fresh = true) (hlen : maxProgram < bytes.length) :
    hostLoad bytes s = .refused (.loadTooLong bytes.length) := by
  simp [hostLoad, hfresh, hlen]

theorem hostLoad_afterStart (hfresh : s.fresh = false) : hostLoad bytes s = .refused .loadAfterStart := by
  simp [hostLoad, hfresh]

end

/-- Settles O10: the three answers of `Load`; bytes stored from 0x200 up are read back there and nowhere else. -/
theorem loadCopiesTheProgram : Obligations.LoadCopiesTheProgram := by
  intro s bytes rest ha
  have hstep : step s = hostLoad bytes { s with agenda := rest } := step_of_cons ha
  rw [hstep]
  refine ⟨fun hfresh hlen => ⟨_, hostLoad_fits hfresh hlen, fun j hj => ?_, fun a hout => ?_, ?_⟩,
    fun hfresh hlong => hostLoad_tooLong hfresh hlong, fun hstarted => hostLoad_afterStart hstarted⟩
  · exact State.byteAt_putBytes_inside _ _ j bytes hj
  · exact State.byteAt_putBytes_outside _ _ a bytes hout
  · exact State.putBytes_eq _ _ bytes

/-! ### `Reset` (R190) -/

/-- Settles O11: `hostReset` is the state after reset but for the keys, the parameters and what the outside world does
next. -/
theorem resetActionClearsAllButKeys : Obligations.ResetActionClearsAllButKeys := fun s _ ha =>
  ⟨_, step_of_cons ha, rfl, fun _ => unlisted_font, fun _ => unlisted_zero, reg_resetWith s.cfg, rfl, rfl, rfl, rfl,
    stack_resetWith s.cfg, fun k _ => Display.get_clear k, rfl, rfl, rfl, rfl, rfl, rfl⟩

/-! ### The end of a run (R203) -/

/-- Format `A` (R62) as a number. -/
theorem encodeA_toNat (op : BitVec 4) (nnn : Addr) : (encodeA op nnn).toNat = op.toNat * 4096 + nnn.toNat := by
  show (op ++ nnn : BitVec (4 + 12)).toNat = _
  rw [BitVec.toNat_append, Nat.shiftLeft_eq, mul_comm, ← Nat.two_pow_add_eq_or_of_lt nnn.isLt, mul_comm]

/-- The two bytes of a final state at `p` are the word of a jump to `p`. -/
theorem wordOfBytes_selfJump {p : Nat} (hp : p < 4096) :
    wordOfBytes (BitVec.ofNat 8 (0x10 + p / 256)) (BitVec.ofNat 8 (p % 256)) = encode (.jp (BitVec.ofNat 12 p)) := by
  apply BitVec.eq_of_toNat_eq
  rw [wordOfBytes, append_bytes_toNat, encode, encodeA_toNat, BitVec.toNat_ofNat, BitVec.toNat_ofNat, BitVec.toNat_ofNat]
  show _ = 1 * 4096 + _
  omega

section

variable {s : State}

/-- A `Cycle` in a final state executes its jump, which writes `pc` as it was. -/
theorem step_final (hf : final s) (hidle : s.agenda = []) : step s = .next s.begun := by
  obtain ⟨hpc, hrun, hhi, hlo⟩ := hf
  have hdecode : decode [s.byteAt s.pc.toNat, s.byteAt (s.pc.toNat + 1)] =
      .ok (.jp (BitVec.ofNat 12 s.pc.toNat), []) := by
    rw [hhi, hlo]
    show Except.ok (decodeWord (wordOfBytes _ _), []) = _
    rw [wordOfBytes_selfJump (by omega), decodeWord_encode rfl]
  have htarget : addrOperand (BitVec.ofNat 12 s.pc.toNat) = s.pc := by
    apply BitVec.eq_of_toNat_eq
    rw [addrOperand_toNat, BitVec.toNat_ofNat]
    omega
  have htail : s.agenda.tail = s.agenda := by
    rw [hidle]
    rfl
  rw [stepRunsTheDecodedInstruction s _ [] (.inl hidle) hrun hpc hdecode]
  show Host.Outcome.next { s with pc := addrOperand _, agenda := s.agenda.tail, fresh := false } = _
  rw [htarget, htail, State.begun]

theorem run_of_step_self (h : step s = .next s) (n : Nat) : core.run n s = .next s := by
  induction n with
  | zero => rfl
  | succ n ih => rw [core_run_succ n h, ih]

theorem safeFor_of_step_self (h : step s = .next s) (hrun : running s) (n : Nat) : safeFor n s := by
  induction n with
  | zero => exact hrun
  | succ n ih => exact ⟨hrun, s, h, ih⟩

end

/-- Settles O51: one step leads to a state that is final again and whose own step leads to itself. -/
theorem selfJumpChangesNothing : Obligations.SelfJumpChangesNothing := by
  intro s hf hidle n
  have ⟨_, hrun, _⟩ := hf
  have hfirst := step_final hf hidle
  have hself : step s.begun = .next s.begun := step_final (s := s.begun) hf hidle
  constructor
  · exact (core_run_succ n hfirst).trans (run_of_step_self hself n)
  · cases n with
    | zero => exact hrun
    | succ n => exact ⟨hrun, _, hfirst, safeFor_of_step_self hself hrun n⟩

end Sys2Proof.Safety

/-! PROOFS. The words the source quotes (spec/95_test_vectors.md). -/

namespace Sys2Proof

/-- Settles O4: each pair of bytes is the encoding of the instruction listed. -/
theorem sourceWordsDecode : Obligations.SourceWordsDecode :=
  ⟨decodeEncodeAgree (.ldImm 10 0x05) [] rfl, decodeEncodeAgree (.ldImm 11 0x03) [] rfl,
    decodeEncodeAgree (.addReg 10 11) [] rfl, decodeEncodeAgree (.ldI 0x210) [] rfl,
    decodeEncodeAgree (.drw 0 0 5) [] rfl, decodeEncodeAgree (.call 0x300) [] rfl, decodeEncodeAgree .ret [] rfl,
    decodeEncodeAgree (.ldVxK 2) [] rfl⟩

end Sys2Proof
